-- ==== Sys2Proof/Word.lean ====
section
/-! DEFINITION. The word type of the core and its plainest arithmetic (spec/00_scope.md R4 and R7). -/

namespace Sys2Proof

/-- A register or memory word: 16 bits, bit 15 the most significant (R4 `XLEN`, R7). -/
abbrev Word := BitVec 16

/-- An address of either memory, and the literal of an address instruction: 15 bits (R4 `ADDR_BITS`, R64). -/
abbrev Addr := BitVec 15

/-- `add16(a, b)`: the sum modulo 65536 (R7, R101). -/
abbrev add16 (a b : Word) : Word := a + b

/-- `sub16(a, b)`: the difference modulo 65536 (R7, R101). -/
abbrev sub16 (a b : Word) : Word := a - b

/-- `neg16(a)`: `0 - a` modulo 65536, so 0x8000 is its own negation (R7, R101, decision D8, log 9). -/
abbrev neg16 (a : Word) : Word := 0 - a

/-- `not16(a)`: every bit inverted (R7). -/
abbrev not16 (a : Word) : Word := ~~~a

/-- `and16(a, b)` (R7). -/
abbrev and16 (a b : Word) : Word := a &&& b

/-- `or16(a, b)` (R7). -/
abbrev or16 (a b : Word) : Word := a ||| b

end Sys2Proof
end

