-- ==== Sys2Proof/Syntax.lean ====
section
/-! DEFINITION. The abstract syntax: destination codes, jump codes, the 28 ALU operations and the instructions, one
constructor of `Instr` for each row of spec/opcode_table.json. -/

namespace Sys2Proof

/-- The destination code of a compute instruction: three independent write enables (R140). -/
structure Dest where
  /-- `dest[2]`, instruction bit 5: write `ra`. -/
  ra : Bool
  /-- `dest[1]`, instruction bit 4: write `rd`. -/
  rd : Bool
  /-- `dest[0]`, instruction bit 3: write data memory. -/
  mem : Bool
  deriving DecidableEq, Repr

/-- The jump code of a compute instruction, in the order of the codes 0 to 7 (R69, R156 to R163). -/
inductive Jump where
  | never
  | jgt
  | jeq
  | jge
  | jlt
  | jne
  | jle
  | jmp
  deriving DecidableEq, Repr

/-- The 28 ALU operations (R66, R102 to R129), in the table's order. -/
inductive AluOp where
  /-- `0` (R102). -/
  | zero
  /-- `1` (R103). -/
  | one
  /-- `-1` (R104). -/
  | minusOne
  /-- `rd` (R105). -/
  | passRd
  /-- `ra` (R106). -/
  | passRa
  /-- `!rd` (R107). -/
  | notRd
  /-- `!ra` (R108). -/
  | notRa
  /-- `-rd` (R109). -/
  | negRd
  /-- `-ra` (R110). -/
  | negRa
  /-- `rd+1` (R111). -/
  | incRd
  /-- `ra+1` (R112). -/
  | incRa
  /-- `rd-1` (R113). -/
  | decRd
  /-- `ra-1` (R114). -/
  | decRa
  /-- `rd+ra` (R115). -/
  | rdAddRa
  /-- `rd-ra` (R116). -/
  | rdSubRa
  /-- `ra-rd` (R117). -/
  | raSubRd
  /-- `rd&ra` (R118). -/
  | rdAndRa
  /-- `rd|ra` (R119). -/
  | rdOrRa
  /-- `rm` (R120). -/
  | passRm
  /-- `!rm` (R121). -/
  | notRm
  /-- `-rm` (R122). -/
  | negRm
  /-- `rm+1` (R123). -/
  | incRm
  /-- `rm-1` (R124). -/
  | decRm
  /-- `rd+rm` (R125). -/
  | rdAddRm
  /-- `rd-rm` (R126). -/
  | rdSubRm
  /-- `rm-rd` (R127). -/
  | rmSubRd
  /-- `rd&rm` (R128). -/
  | rdAndRm
  /-- `rd|rm` (R129). -/
  | rdOrRm
  deriving DecidableEq, Repr

/-- Every ALU operation, once, in the table's order. -/
def AluOp.all : List AluOp :=
  [.zero, .one, .minusOne, .passRd, .passRa, .notRd, .notRa, .negRd, .negRa,
   .incRd, .incRa, .decRd, .decRa, .rdAddRa, .rdSubRa, .raSubRd, .rdAndRa, .rdOrRa,
   .passRm, .notRm, .negRm, .incRm, .decRm, .rdAddRm, .rdSubRm, .rmSubRd, .rdAndRm, .rdOrRm]

/-- An instruction: one constructor for each row of the opcode table (R60, R61, R62, R66, R67). -/
inductive Instr where
  /-- `@value`: the address instruction (R90). -/
  | address (value : Addr)
  /-- The compute instruction with operation `0` (R102). -/
  | zero (dest : Dest) (jump : Jump)
  /-- The compute instruction with operation `1` (R103). -/
  | one (dest : Dest) (jump : Jump)
  /-- The compute instruction with operation `-1` (R104). -/
  | minusOne (dest : Dest) (jump : Jump)
  /-- The compute instruction with operation `rd` (R105). -/
  | passRd (dest : Dest) (jump : Jump)
  /-- The compute instruction with operation `ra` (R106). -/
  | passRa (dest : Dest) (jump : Jump)
  /-- The compute instruction with operation `!rd` (R107). -/
  | notRd (dest : Dest) (jump : Jump)
  /-- The compute instruction with operation `!ra` (R108). -/
  | notRa (dest : Dest) (jump : Jump)
  /-- The compute instruction with operation `-rd` (R109). -/
  | negRd (dest : Dest) (jump : Jump)
  /-- The compute instruction with operation `-ra` (R110). -/
  | negRa (dest : Dest) (jump : Jump)
  /-- The compute instruction with operation `rd+1` (R111). -/
  | incRd (dest : Dest) (jump : Jump)
  /-- The compute instruction with operation `ra+1` (R112). -/
  | incRa (dest : Dest) (jump : Jump)
  /-- The compute instruction with operation `rd-1` (R113). -/
  | decRd (dest : Dest) (jump : Jump)
  /-- The compute instruction with operation `ra-1` (R114). -/
  | decRa (dest : Dest) (jump : Jump)
  /-- The compute instruction with operation `rd+ra` (R115). -/
  | rdAddRa (dest : Dest) (jump : Jump)
  /-- The compute instruction with operation `rd-ra` (R116). -/
  | rdSubRa (dest : Dest) (jump : Jump)
  /-- The compute instruction with operation `ra-rd` (R117). -/
  | raSubRd (dest : Dest) (jump : Jump)
  /-- The compute instruction with operation `rd&ra` (R118). -/
  | rdAndRa (dest : Dest) (jump : Jump)
  /-- The compute instruction with operation `rd|ra` (R119). -/
  | rdOrRa (dest : Dest) (jump : Jump)
  /-- The compute instruction with operation `rm` (R120). -/
  | passRm (dest : Dest) (jump : Jump)
  /-- The compute instruction with operation `!rm` (R121). -/
  | notRm (dest : Dest) (jump : Jump)
  /-- The compute instruction with operation `-rm` (R122). -/
  | negRm (dest : Dest) (jump : Jump)
  /-- The compute instruction with operation `rm+1` (R123). -/
  | incRm (dest : Dest) (jump : Jump)
  /-- The compute instruction with operation `rm-1` (R124). -/
  | decRm (dest : Dest) (jump : Jump)
  /-- The compute instruction with operation `rd+rm` (R125). -/
  | rdAddRm (dest : Dest) (jump : Jump)
  /-- The compute instruction with operation `rd-rm` (R126). -/
  | rdSubRm (dest : Dest) (jump : Jump)
  /-- The compute instruction with operation `rm-rd` (R127). -/
  | rmSubRd (dest : Dest) (jump : Jump)
  /-- The compute instruction with operation `rd&rm` (R128). -/
  | rdAndRm (dest : Dest) (jump : Jump)
  /-- The compute instruction with operation `rd|rm` (R129). -/
  | rdOrRm (dest : Dest) (jump : Jump)
  /-- A compute instruction whose comp code belongs to no operation (R67, R130); it keeps the code. -/
  | illegalCompCode (comp : BitVec 7) (dest : Dest) (jump : Jump)
  deriving DecidableEq, Repr

end Sys2Proof
end

