-- ==== Sys2Proof/Config.lean ====
section
/-! DEFINITION. What is configuration and not state (spec/10_state.md R24): the parameters the source leaves open
(spec/00_scope.md R5), as one structure, so that a claim can name or quantify over each. Their default values stand in
Machine/Parameters.lean. No parameter is a free value: the spec gives each of them a default. -/

namespace Sys2Proof

/-- `ADDR_POLICY`: what a use of `ra` with bit 15 set as an address does (R5, R33, decision D1). -/
inductive AddrPolicy where
  /-- Bit 15 is dropped. -/
  | mask
  /-- The step has no outcome. -/
  | fault
  deriving DecidableEq, Repr

/-- `PC_OVERFLOW`: what incrementing `pc` from 32767 does (R5, R11, decision D2). -/
inductive PcOverflow where
  /-- `pc` becomes 0. -/
  | wrap
  /-- The step has no outcome. -/
  | fault
  deriving DecidableEq, Repr

/-- The value of `ra` that `MEM_WRITE_ADDR` and `JUMP_TARGET` choose (R5, R9 "new `ra`, old `ra`"). -/
inductive RaChoice where
  /-- `ra` after the destination write of the current step. -/
  | newRa
  /-- `ra` before the destination write of the current step. -/
  | oldRa
  deriving DecidableEq, Repr

/-- One entry of `HOST_WRITES`: a step index, an address and a value (R5, decision D12). DESIGN CHOICE, unsafe: the host calls
`write_data` before the step with this index, where R5 and D12 say only "between steps" (log 28). -/
structure HostWrite where
  stepIndex : Nat
  addr : Addr
  value : Word
  deriving DecidableEq, Repr

/-- The parameters of R5. -/
structure Config where
  /-- `COMP_CODE_TABLE`: the 7-bit code of each operation. -/
  compCode : AluOp → BitVec 7
  /-- `NEG_RA_PRESENT`: whether `-ra` is an operation. -/
  negRaPresent : Bool
  /-- `ILLEGAL_COMP_RESULT`: the sentinel. -/
  illegalCompResult : Word
  /-- `ADDR_POLICY`. -/
  addrPolicy : AddrPolicy
  /-- `PC_OVERFLOW`. -/
  pcOverflow : PcOverflow
  /-- `MEM_WRITE_ADDR`. -/
  memWriteAddr : RaChoice
  /-- `JUMP_TARGET`. -/
  jumpTarget : RaChoice
  /-- `HOST_WRITES`. -/
  hostWrites : List HostWrite

/-- What R5 asks of a `COMP_CODE_TABLE`: "any injective map from the 28 operations to 7-bit codes". -/
def Config.CodesInjective (c : Config) : Prop :=
  ∀ o₁ o₂ : AluOp, c.compCode o₁ = c.compCode o₂ → o₁ = o₂

end Sys2Proof
end

