-- ==== Sys2Proof/Machine/Parameters.lean ====
section
/-! DEFINITION. The parameters' values: the constants the source fixes (spec/00_scope.md R4), the comp code table of
spec/30_encoding.md R66 and the defaults of R5; and the look-up of a comp code in a configuration's table. -/

namespace Sys2Proof

/-- `IMEM_WORDS` (R4). -/
def imemWords : Nat := 32768

/-- `DMEM_WORDS` (R4). -/
def dmemWords : Nat := 32768

/-- `SCREEN_BASE` (R4). -/
def screenBase : Nat := 0x4000

/-- `SCREEN_END`, one past the display range (R4). -/
def screenEnd : Nat := 0x6000

/-- `SCREEN_W` (R4). -/
def screenWidth : Nat := 512

/-- `SCREEN_H` (R4). -/
def screenHeight : Nat := 256

/-- `WORDS_PER_ROW` (R4). -/
def wordsPerRow : Nat := 32

/-- `PIXELS_PER_WORD` (R4). -/
def pixelsPerWord : Nat := 16

/-- `KBD_ADDR`, by the host's convention (R4, R37). -/
def keyboardAddr : Addr := 0x6000

/-- The default `COMP_CODE_TABLE` (R66). PRESUMED: the spec supplies these codes from general knowledge (decision D4, log 5);
unsafe where a claim rests on an instruction word. -/
def compCodeTable : AluOp → BitVec 7
  | .zero => 0x2A
  | .one => 0x3F
  | .minusOne => 0x3A
  | .passRd => 0x0C
  | .passRa => 0x30
  | .notRd => 0x0D
  | .notRa => 0x31
  | .negRd => 0x0F
  | .negRa => 0x33
  | .incRd => 0x1F
  | .incRa => 0x37
  | .decRd => 0x0E
  | .decRa => 0x32
  | .rdAddRa => 0x02
  | .rdSubRa => 0x13
  | .raSubRd => 0x07
  | .rdAndRa => 0x00
  | .rdOrRa => 0x15
  | .passRm => 0x70
  | .notRm => 0x71
  | .negRm => 0x73
  | .incRm => 0x77
  | .decRm => 0x72
  | .rdAddRm => 0x42
  | .rdSubRm => 0x53
  | .rmSubRd => 0x47
  | .rdAndRm => 0x40
  | .rdOrRm => 0x55

/-- The default value of every parameter (R5). DESIGN CHOICE, the spec's own: decisions D1 to D7 and D12, logs 2 to 8 and 13. -/
def Config.default : Config where
  compCode := compCodeTable
  negRaPresent := true
  illegalCompResult := 1337
  addrPolicy := .mask
  pcOverflow := .wrap
  memWriteAddr := .newRa
  jumpTarget := .newRa
  hostWrites := []

/-- Whether an operation exists: `-ra` does only when `NEG_RA_PRESENT` (R66 note, R110, decision D5). -/
def Config.present (c : Config) (op : AluOp) : Bool :=
  op != .negRa || c.negRaPresent

/-- The inverse of `COMP_CODE_TABLE`: the operation a comp code selects, or none for an illegal code (R66, R67, R71). -/
def Config.opOfCode (c : Config) (comp : BitVec 7) : Option AluOp :=
  AluOp.all.find? fun op => c.present op && c.compCode op == comp

end Sys2Proof
end

