-- ==== Sys2Proof/WellFormed.lean ====
section
/-! DEFINITION. Which terms of `Instr` are instructions of the machine. The widths of literals and codes are in the
types; what is left to check are the two ties between an instruction and the comp code table. -/

namespace Sys2Proof

/-- An instruction exists under a configuration: `-ra` only when `NEG_RA_PRESENT` (R110), and an illegal-code
instruction only with a code the table gives to no operation (R67). -/
def Instr.wellFormedIn (c : Config) : Instr → Bool
  | .address _ => true
  | .zero _ _ => true
  | .one _ _ => true
  | .minusOne _ _ => true
  | .passRd _ _ => true
  | .passRa _ _ => true
  | .notRd _ _ => true
  | .notRa _ _ => true
  | .negRd _ _ => true
  | .negRa _ _ => c.present .negRa
  | .incRd _ _ => true
  | .incRa _ _ => true
  | .decRd _ _ => true
  | .decRa _ _ => true
  | .rdAddRa _ _ => true
  | .rdSubRa _ _ => true
  | .raSubRd _ _ => true
  | .rdAndRa _ _ => true
  | .rdOrRa _ _ => true
  | .passRm _ _ => true
  | .notRm _ _ => true
  | .negRm _ _ => true
  | .incRm _ _ => true
  | .decRm _ _ => true
  | .rdAddRm _ _ => true
  | .rdSubRm _ _ => true
  | .rmSubRd _ _ => true
  | .rdAndRm _ _ => true
  | .rdOrRm _ _ => true
  | .illegalCompCode comp _ _ => (c.opOfCode comp).isNone

/-- The same at the default parameters. -/
def Instr.wellFormed (i : Instr) : Bool :=
  i.wellFormedIn Config.default

end Sys2Proof
end

