-- ==== Sys2Proof/Decode.lean ====
section
/-! DEFINITION. The instruction decoder (spec/30_encoding.md R60 to R73), total on all words, and after it the encoder
(R72). There is nothing to reject: every one of the 65536 words is an instruction (R70). -/

namespace Sys2Proof

/-- `inst[15]`: 0 for an address instruction, 1 for a compute instruction (R60). -/
def isCompute (inst : Word) : Bool := inst.getLsbD 15

/-- `literal = inst[14:0]` (R61, R64). -/
def literalField (inst : Word) : Addr := inst.extractLsb' 0 15

/-- `comp = inst[12:6]` (R62). -/
def compField (inst : Word) : BitVec 7 := inst.extractLsb' 6 7

/-- `dest = inst[5:3]` (R62). -/
def destField (inst : Word) : BitVec 3 := inst.extractLsb' 3 3

/-- `jump = inst[2:0]` (R62). -/
def jumpField (inst : Word) : BitVec 3 := inst.extractLsb' 0 3

/-- The destination set of a 3-bit dest code (R68, R140). -/
def Dest.ofCode (code : BitVec 3) : Dest where
  ra := code.getLsbD 2
  rd := code.getLsbD 1
  mem := code.getLsbD 0

/-- The dest code of a destination set (R68). -/
def Dest.code (d : Dest) : BitVec 3 :=
  BitVec.ofNat 3 (4 * d.ra.toNat + 2 * d.rd.toNat + d.mem.toNat)

/-- The jump condition of a 3-bit jump code (R69). -/
def Jump.ofCode (code : BitVec 3) : Jump :=
  match code.toNat with
  | 0 => .never
  | 1 => .jgt
  | 2 => .jeq
  | 3 => .jge
  | 4 => .jlt
  | 5 => .jne
  | 6 => .jle
  | _ => .jmp

/-- The jump code of a jump condition (R69). -/
def Jump.code : Jump → BitVec 3
  | .never => 0
  | .jgt => 1
  | .jeq => 2
  | .jge => 3
  | .jlt => 4
  | .jne => 5
  | .jle => 6
  | .jmp => 7

/-- The compute instruction of an operation, a destination set and a jump condition. -/
def Instr.ofOp (op : AluOp) (dest : Dest) (jump : Jump) : Instr :=
  match op with
  | .zero => .zero dest jump
  | .one => .one dest jump
  | .minusOne => .minusOne dest jump
  | .passRd => .passRd dest jump
  | .passRa => .passRa dest jump
  | .notRd => .notRd dest jump
  | .notRa => .notRa dest jump
  | .negRd => .negRd dest jump
  | .negRa => .negRa dest jump
  | .incRd => .incRd dest jump
  | .incRa => .incRa dest jump
  | .decRd => .decRd dest jump
  | .decRa => .decRa dest jump
  | .rdAddRa => .rdAddRa dest jump
  | .rdSubRa => .rdSubRa dest jump
  | .raSubRd => .raSubRd dest jump
  | .rdAndRa => .rdAndRa dest jump
  | .rdOrRa => .rdOrRa dest jump
  | .passRm => .passRm dest jump
  | .notRm => .notRm dest jump
  | .negRm => .negRm dest jump
  | .incRm => .incRm dest jump
  | .decRm => .decRm dest jump
  | .rdAddRm => .rdAddRm dest jump
  | .rdSubRm => .rdSubRm dest jump
  | .rmSubRd => .rmSubRd dest jump
  | .rdAndRm => .rdAndRm dest jump
  | .rdOrRm => .rdOrRm dest jump

/-- `decode` (R71), with the parameters as an argument. -/
def decodeWith (c : Config) (inst : Word) : Instr :=
  if isCompute inst then
    match c.opOfCode (compField inst) with
    | some op => Instr.ofOp op (Dest.ofCode (destField inst)) (Jump.ofCode (jumpField inst))
    | none => .illegalCompCode (compField inst) (Dest.ofCode (destField inst)) (Jump.ofCode (jumpField inst))
  else
    .address (literalField inst)

/-- `decode` at the default parameters (R71). -/
def decode (inst : Word) : Instr :=
  decodeWith Config.default inst

/-- What an instruction is made of: the two formats (R61, R62), and within format C a documented operation or an illegal code. -/
inductive Instr.Shape where
  | address (value : Addr)
  | compute (op : AluOp) (dest : Dest) (jump : Jump)
  | illegal (comp : BitVec 7) (dest : Dest) (jump : Jump)
  deriving DecidableEq, Repr

/-- The shape of an instruction: one row of the opcode table a line. -/
def Instr.shape : Instr → Instr.Shape
  | .address value => .address value
  | .zero dest jump => .compute .zero dest jump
  | .one dest jump => .compute .one dest jump
  | .minusOne dest jump => .compute .minusOne dest jump
  | .passRd dest jump => .compute .passRd dest jump
  | .passRa dest jump => .compute .passRa dest jump
  | .notRd dest jump => .compute .notRd dest jump
  | .notRa dest jump => .compute .notRa dest jump
  | .negRd dest jump => .compute .negRd dest jump
  | .negRa dest jump => .compute .negRa dest jump
  | .incRd dest jump => .compute .incRd dest jump
  | .incRa dest jump => .compute .incRa dest jump
  | .decRd dest jump => .compute .decRd dest jump
  | .decRa dest jump => .compute .decRa dest jump
  | .rdAddRa dest jump => .compute .rdAddRa dest jump
  | .rdSubRa dest jump => .compute .rdSubRa dest jump
  | .raSubRd dest jump => .compute .raSubRd dest jump
  | .rdAndRa dest jump => .compute .rdAndRa dest jump
  | .rdOrRa dest jump => .compute .rdOrRa dest jump
  | .passRm dest jump => .compute .passRm dest jump
  | .notRm dest jump => .compute .notRm dest jump
  | .negRm dest jump => .compute .negRm dest jump
  | .incRm dest jump => .compute .incRm dest jump
  | .decRm dest jump => .compute .decRm dest jump
  | .rdAddRm dest jump => .compute .rdAddRm dest jump
  | .rdSubRm dest jump => .compute .rdSubRm dest jump
  | .rmSubRd dest jump => .compute .rmSubRd dest jump
  | .rdAndRm dest jump => .compute .rdAndRm dest jump
  | .rdOrRm dest jump => .compute .rdOrRm dest jump
  | .illegalCompCode comp dest jump => .illegal comp dest jump

/-- `0xE000 | comp << 6 | dest << 3 | jump` (R72). PRESUMED: bits 14:13 are emitted as 11, as assemblers do (R63, log 19); the decoder
ignores them, so nothing the machine does rests on it. -/
def packCompute (comp : BitVec 7) (dest : Dest) (jump : Jump) : Word :=
  0xE000 ||| comp.setWidth 16 <<< 6 ||| dest.code.setWidth 16 <<< 3 ||| jump.code.setWidth 16

/-- `encA` and `encC` (R72), with the parameters as an argument. -/
def encodeWith (c : Config) (i : Instr) : Word :=
  match i.shape with
  | .address value => value.setWidth 16
  | .compute op dest jump => packCompute (c.compCode op) dest jump
  | .illegal comp dest jump => packCompute comp dest jump

/-- The word of an instruction at the default parameters (R72). -/
def encode (i : Instr) : Word :=
  encodeWith Config.default i

/-- The instruction the decoder reads from an instruction given as a number of `nbits` bits, bit 0 least significant: every
instruction is exactly one 16-bit word (R60), so more than 16 bits are no instruction (log 24). -/
def decodeTableWord (nbits w : Nat) : Option Instr :=
  if nbits ≤ 16 then some (decode (BitVec.ofNat 16 (w % 2 ^ nbits))) else none

end Sys2Proof
end

