-- ==== Sys2Proof/Machine/State.lean ====
section
/-! DEFINITION. The machine's state as plain data (spec/10_state.md), the state after reset, and the reasons a step or a
host operation can stop. -/

namespace Sys2Proof.Machine

/-- A memory of 32768 words: the words that differ from what an unlisted address reads as, as (address, word) pairs with
addresses strictly rising (`Memory.wf`). DESIGN CHOICE, safe: the pairs hold 16-bit words, the only unit the hardware
addresses (R38, R39, decision D17, log 1). -/
abbrev Memory := List (Nat × Word)

/-- A pixel event `(x, y, on)` (R19). -/
structure PixelEvent where
  /-- The column, 0 at the left. -/
  x : Nat
  /-- The row. -/
  y : Nat
  /-- Whether the pixel is set or cleared. -/
  on : Bool
  deriving DecidableEq, Repr

/-- Everything the spec gives the machine: four registers (R10), two memories (R17, R18) and the stream of pixel events
emitted so far, oldest first (R19). -/
structure State where
  /-- The program counter (R11). -/
  pc : Word
  /-- The address register (R12). -/
  ra : Word
  /-- The data register (R13). -/
  rd : Word
  /-- The memory-read register (R14). -/
  rm : Word
  /-- Instruction memory (R17). -/
  imem : Memory
  /-- Data memory (R18). -/
  dmem : Memory
  /-- The pixel event stream; the core only appends to it (R19). -/
  events : List PixelEvent
  deriving DecidableEq, Repr

/-- The machine at creation, which is the reset state with no program loaded (R23, R210, R211). -/
def State.reset : State where
  pc := 0
  ra := 0
  rd := 0
  rm := 0
  imem := []
  dmem := []
  events := []

/-- Why a step has no outcome. The hardware has no fault (R190, R205); these two are the model's, and no step at the default
parameters raises either. -/
inductive Fault where
  /-- Raised by the operations on addresses when `ADDR_POLICY = fault` and a register with bit 15 set is used as a data
  address or a jump target (R33, R192, U2). Safe: the machine stops where the masking hardware goes on. -/
  | addressBit15
  /-- Raised by the `pc` increment when `PC_OVERFLOW = fault` and `pc` would reach 0x8000 (R192, U3). Safe, for the same
  reason. -/
  | pcOverflow
  deriving DecidableEq, Repr

/-- Why an instruction has no meaning. -/
inductive Refusal where
  /-- Raised by `exec` alone, for an instruction that has no meaning yet. Safe. No arm raises it: every instruction has its
  meaning. -/
  | notModelled (mnemonic : String)
  deriving DecidableEq, Repr

/-- Why a host operation is turned away; it then changes no state (R204, R215). -/
inductive HostError where
  /-- `LoadError`: the program has more than 32768 words (R215, U9). -/
  | programTooLong
  /-- `LoadError`: a line of program text is not 16 binary characters (R76, R204, R215). -/
  | malformedLine
  /-- A host data address of 32768 or more, which the operation's type cannot express (R179). -/
  | addressOutOfRange
  /-- `set_program_counter` of 32768 or more when `PC_OVERFLOW = fault` (decision D11). -/
  | pcOutOfRange
  deriving DecidableEq, Repr

end Sys2Proof.Machine
end

