-- ==== Sys2Proof/Machine/Ops.lean ====
section
/-! DEFINITION. The named operations over memories and registers: addresses, the memory accesses and the display write
expander (spec/20_memory.md), the `rm` refresh, the fetch and the program counter (spec/40_step_cycle.md). Taking an
exception is not among them: the hardware has none (R190, R196). -/

namespace Sys2Proof.Machine

/-- `addr15(v) = v[14:0]` (R7, R33). -/
def addr15 (v : Word) : Addr := v.extractLsb' 0 15

/-- `zext_16(v)` of a 15-bit value (R7). -/
def zext16 (a : Addr) : Word := a.setWidth 16

/-- `s16(v)`: the two's-complement reading (R7). -/
abbrev s16 (v : Word) : Int := v.toInt

/-! ### Memories -/

/-- What an address that the list does not name reads as: memories are created zeroed (R23, R210). -/
def Memory.unlisted : Word := 0

/-- `imem[a]` or `dmem[a]`. -/
def Memory.read : Memory → Addr → Word
  | [], _ => Memory.unlisted
  | (k, v) :: rest, a => if k = a.toNat then v else Memory.read rest a

/-- Insert a cell before the first cell of a higher address. -/
def Memory.insert (k : Nat) (v : Word) : Memory → Memory
  | [] => [(k, v)]
  | cell :: rest => if k < cell.1 then (k, v) :: cell :: rest else cell :: Memory.insert k v rest

/-- `m[a] <- v`: any cell of that address goes, and a new one is put in its place unless an unlisted address reads as `v`. -/
def Memory.write (m : Memory) (a : Addr) (v : Word) : Memory :=
  let others := m.filter fun cell => cell.1 != a.toNat
  if v = Memory.unlisted then others else Memory.insert a.toNat v others

/-- The words of a list laid out from an address on, in canonical form. -/
def Memory.ofWords : Nat → List Word → Memory
  | _, [] => []
  | k, v :: rest => if v = Memory.unlisted then Memory.ofWords (k + 1) rest else (k, v) :: Memory.ofWords (k + 1) rest

/-- The canonical form from an address on: addresses strictly rising and below 32768, no word an unlisted address reads as. -/
def Memory.canonicalFrom : Nat → Memory → Bool
  | _, [] => true
  | low, (k, v) :: rest =>
    decide (low ≤ k) && decide (k < dmemWords) && (v != Memory.unlisted) && Memory.canonicalFrom (k + 1) rest

/-- The canonical form of a memory. -/
def Memory.wf (m : Memory) : Bool := Memory.canonicalFrom 0 m

/-! ### Registers -/

/-- `pc <- v`. -/
def State.setPc (s : State) (v : Word) : State := { s with pc := v }

/-- `ra <- v`. -/
def State.setRa (s : State) (v : Word) : State := { s with ra := v }

/-- `rd <- v`. -/
def State.setRd (s : State) (v : Word) : State := { s with rd := v }

/-- `rm <- v`. -/
def State.setRm (s : State) (v : Word) : State := { s with rm := v }

/-! ### Addresses and the data write -/

/-- The address a register presents: its low 15 bits, or no outcome when bit 15 is set and `ADDR_POLICY = fault` (R33,
decision D1, log 2). -/
def effectiveAddress (c : Config) (v : Word) : Except Fault Addr :=
  match c.addrPolicy with
  | .mask => .ok (addr15 v)
  | .fault => if v.getLsbD 15 then .error .addressBit15 else .ok (addr15 v)

/-- Whether a data address is in the display range [0x4000, 0x6000) (R34, R35). -/
def inDisplay (a : Addr) : Bool :=
  decide (screenBase ≤ a.toNat) && decide (a.toNat < screenEnd)

/-- The pixel event of bit position `i` of a write of `v` at `a` (R40): bit 15 is the leftmost pixel (R42). -/
def pixelEvent (a : Addr) (v : Word) (i : Nat) : PixelEvent where
  x := (a.toNat - screenBase) % wordsPerRow * pixelsPerWord + i
  y := (a.toNat - screenBase) / wordsPerRow
  on := v.getLsbD (15 - i)

/-- `DisplayExpand(a, v)`: the 16 events, in increasing `i` (R40, R44). -/
def displayExpand (a : Addr) (v : Word) : List PixelEvent :=
  (List.range pixelsPerWord).map (pixelEvent a v)

/-- `MemWrite(a, 1, v)`: the store, and in the display range also the pixel events (R34). -/
def memWrite (a : Addr) (v : Word) (s : State) : State :=
  { s with
    dmem := s.dmem.write a v
    events := if inDisplay a then s.events ++ displayExpand a v else s.events }

/-! ### The phases of a step around its instruction -/

/-- Phase 1: `rm <- MemRead(addr15(ra), 1)` (R81). -/
def refreshRm (c : Config) (s : State) : Except Fault State :=
  match effectiveAddress c s.ra with
  | .error f => .error f
  | .ok a => .ok (s.setRm (s.dmem.read a))

/-- Phase 2: `IMemRead(pc)` (R82). DEDUCED, safe: in a state no run reaches, with `pc` at 32768 or more, the address is its low 15
bits (R33 quotes "masked to 15 bits before use"; log 18). -/
def fetch (s : State) : Word :=
  s.imem.read (addr15 s.pc)

/-- `(pc + 1) mod 32768`, or no outcome when `pc` would reach 0x8000 and `PC_OVERFLOW = fault` (R166, decision D2, log 3). -/
def pcSuccessor (c : Config) (pc : Word) : Except Fault Word :=
  match c.pcOverflow with
  | .wrap => .ok (zext16 (addr15 (add16 pc 1)))
  | .fault => if 32767 ≤ pc.toNat then .error .pcOverflow else .ok (zext16 (addr15 (add16 pc 1)))

/-- The `ra` that a parameter chooses. -/
def RaChoice.pick (choice : RaChoice) (oldRa newRa : Word) : Word :=
  match choice with
  | .newRa => newRa
  | .oldRa => oldRa

/-- Phase 4: `pc` is written once, with the jump target or the successor (R85, R166). The state is the one after the
destination writes; `oldRa` is what `ra` held before them (R165, decision D7, log 8). -/
def updatePc (c : Config) (taken : Bool) (oldRa : Word) (s : State) : Except Fault State :=
  if taken then
    match effectiveAddress c (RaChoice.pick c.jumpTarget oldRa s.ra) with
    | .error f => .error f
    | .ok a => .ok (s.setPc (zext16 a))
  else
    match pcSuccessor c s.pc with
    | .error f => .error f
    | .ok v => .ok (s.setPc v)

/-- The outcome of a computation that has a state or no outcome. -/
def toOutcome : Except Fault State → Host.Outcome State Fault Refusal
  | .error f => .fault f
  | .ok s => .next s

end Sys2Proof.Machine
end

