-- ==== Sys2Proof/Machine/Flags.lean ====
section
/-! DEFINITION. The core has no flags (spec/10_state.md R16): what takes their place is the jump multiplexer's test of the
result of the same instruction (spec/44_compute_jump.md R155 to R164). -/

namespace Sys2Proof.Machine

/-- `JumpCond(jump, s16(r))`, one line for each of R156 to R163: signed comparisons of the result with zero. -/
def jumpCond (jump : Jump) (r : Word) : Bool :=
  match jump with
  | .never => false
  | .jgt => decide (0 < s16 r)
  | .jeq => decide (s16 r = 0)
  | .jge => decide (0 ≤ s16 r)
  | .jlt => decide (s16 r < 0)
  | .jne => decide (s16 r ≠ 0)
  | .jle => decide (s16 r ≤ 0)
  | .jmp => true

end Sys2Proof.Machine
end

