-- ==== Sys2Proof/Machine/Operands.lean ====
section
/-! DEFINITION. The ALU compute table (spec/42_compute_alu.md): the operands it sees and the result of each operation. -/

namespace Sys2Proof.Machine

/-- The three operand values of the ALU (R100). -/
structure Operands where
  ra : Word
  rd : Word
  rm : Word
  deriving DecidableEq, Repr

/-- The register values as they stand when the ALU is evaluated: the old `ra`, `rd`, and `rm` just refreshed (R84, R100). -/
def State.operands (s : State) : Operands where
  ra := s.ra
  rd := s.rd
  rm := s.rm

/-- The result of an ALU operation: one line for each of R102 to R129. -/
def alu (op : AluOp) (o : Operands) : Word :=
  match op with
  | .zero => 0
  | .one => 1
  | .minusOne => 0xFFFF
  | .passRd => o.rd
  | .passRa => o.ra
  | .notRd => not16 o.rd
  | .notRa => not16 o.ra
  | .negRd => neg16 o.rd
  | .negRa => neg16 o.ra
  | .incRd => add16 o.rd 1
  | .incRa => add16 o.ra 1
  | .decRd => sub16 o.rd 1
  | .decRa => sub16 o.ra 1
  | .rdAddRa => add16 o.rd o.ra
  | .rdSubRa => sub16 o.rd o.ra
  | .raSubRd => sub16 o.ra o.rd
  | .rdAndRa => and16 o.rd o.ra
  | .rdOrRa => or16 o.rd o.ra
  | .passRm => o.rm
  | .notRm => not16 o.rm
  | .negRm => neg16 o.rm
  | .incRm => add16 o.rm 1
  | .decRm => sub16 o.rm 1
  | .rdAddRm => add16 o.rd o.rm
  | .rdSubRm => sub16 o.rd o.rm
  | .rmSubRd => sub16 o.rm o.rd
  | .rdAndRm => and16 o.rd o.rm
  | .rdOrRm => or16 o.rd o.rm

end Sys2Proof.Machine
end

