-- ==== Sys2Proof/Machine/Execute.lean ====
section
/-! DEFINITION. The two shared instruction bodies (spec/40_step_cycle.md R83, R84): the address instruction's, and the compute
instruction's destination multiplexer (spec/43_compute_dest.md) followed by its jump multiplexer. -/

namespace Sys2Proof.Machine

/-- Step 4c: the enabled writes of `r`, first `ra`, then `rd`, then data memory at the address in the new `ra` (R149, R150,
decision D6, log 7). -/
def writeDestinations (c : Config) (dest : Dest) (r : Word) (s : State) : Except Fault State :=
  let s₁ := if dest.ra then s.setRa r else s
  let s₂ := if dest.rd then s₁.setRd r else s₁
  if dest.mem then
    match effectiveAddress c (RaChoice.pick c.memWriteAddr s.ra s₂.ra) with
    | .error f => .error f
    | .ok a => .ok (memWrite a r s₂)
  else
    .ok s₂

/-- Steps 4c to 4e of a compute instruction whose result is `r` (R84): the writes, then the condition on `r` alone (R164),
then `pc` (R166). -/
def compute (c : Config) (r : Word) (dest : Dest) (jump : Jump) (s : State) : Host.Outcome State Fault Refusal :=
  match writeDestinations c dest r s with
  | .error f => .fault f
  | .ok s₁ => toOutcome (updatePc c (jumpCond jump r) s.ra s₁)

/-- `ra <- zext_16(literal)`, and `pc` advances (R83, R90). -/
def loadAddress (c : Config) (value : Addr) (s : State) : Host.Outcome State Fault Refusal :=
  toOutcome (updatePc c false s.ra (s.setRa (zext16 value)))

end Sys2Proof.Machine
end

