-- ==== Sys2Proof/Machine/AddressInstr.lean ====
section
/-! DEFINITION. The address instruction (spec/41_address_instruction.md). -/

namespace Sys2Proof.Machine

/-- `@value` (R90). -/
def execAddress (value : Addr) (s : State) : Host.Outcome State Fault Refusal :=
  loadAddress Config.default value s

end Sys2Proof.Machine
end

