-- ==== Sys2Proof/Machine/Constants.lean ====
section
/-! DEFINITION. The compute instructions whose result is a constant (spec/42_compute_alu.md section 2). -/

namespace Sys2Proof.Machine

/-- `0` (R102). -/
def execZero (dest : Dest) (jump : Jump) (s : State) : Host.Outcome State Fault Refusal :=
  compute Config.default (alu .zero s.operands) dest jump s

/-- `1` (R103). -/
def execOne (dest : Dest) (jump : Jump) (s : State) : Host.Outcome State Fault Refusal :=
  compute Config.default (alu .one s.operands) dest jump s

/-- `-1` (R104). -/
def execMinusOne (dest : Dest) (jump : Jump) (s : State) : Host.Outcome State Fault Refusal :=
  compute Config.default (alu .minusOne s.operands) dest jump s

end Sys2Proof.Machine
end

