-- ==== Sys2Proof/Machine/DataAddress.lean ====
section
/-! DEFINITION. The compute instructions on `rd` and `ra` (spec/42_compute_alu.md section 3). -/

namespace Sys2Proof.Machine

/-- `rd` (R105). -/
def execPassRd (dest : Dest) (jump : Jump) (s : State) : Host.Outcome State Fault Refusal :=
  compute Config.default (alu .passRd s.operands) dest jump s

/-- `ra` (R106). -/
def execPassRa (dest : Dest) (jump : Jump) (s : State) : Host.Outcome State Fault Refusal :=
  compute Config.default (alu .passRa s.operands) dest jump s

/-- `!rd` (R107). -/
def execNotRd (dest : Dest) (jump : Jump) (s : State) : Host.Outcome State Fault Refusal :=
  compute Config.default (alu .notRd s.operands) dest jump s

/-- `!ra` (R108). -/
def execNotRa (dest : Dest) (jump : Jump) (s : State) : Host.Outcome State Fault Refusal :=
  compute Config.default (alu .notRa s.operands) dest jump s

/-- `-rd` (R109). -/
def execNegRd (dest : Dest) (jump : Jump) (s : State) : Host.Outcome State Fault Refusal :=
  compute Config.default (alu .negRd s.operands) dest jump s

/-- `-ra` (R110), present at the default parameters (decision D5, log 6). -/
def execNegRa (dest : Dest) (jump : Jump) (s : State) : Host.Outcome State Fault Refusal :=
  compute Config.default (alu .negRa s.operands) dest jump s

/-- `rd+1` (R111). -/
def execIncRd (dest : Dest) (jump : Jump) (s : State) : Host.Outcome State Fault Refusal :=
  compute Config.default (alu .incRd s.operands) dest jump s

/-- `ra+1` (R112). -/
def execIncRa (dest : Dest) (jump : Jump) (s : State) : Host.Outcome State Fault Refusal :=
  compute Config.default (alu .incRa s.operands) dest jump s

/-- `rd-1` (R113). -/
def execDecRd (dest : Dest) (jump : Jump) (s : State) : Host.Outcome State Fault Refusal :=
  compute Config.default (alu .decRd s.operands) dest jump s

/-- `ra-1` (R114). -/
def execDecRa (dest : Dest) (jump : Jump) (s : State) : Host.Outcome State Fault Refusal :=
  compute Config.default (alu .decRa s.operands) dest jump s

/-- `rd+ra` (R115). -/
def execRdAddRa (dest : Dest) (jump : Jump) (s : State) : Host.Outcome State Fault Refusal :=
  compute Config.default (alu .rdAddRa s.operands) dest jump s

/-- `rd-ra` (R116). -/
def execRdSubRa (dest : Dest) (jump : Jump) (s : State) : Host.Outcome State Fault Refusal :=
  compute Config.default (alu .rdSubRa s.operands) dest jump s

/-- `ra-rd` (R117). -/
def execRaSubRd (dest : Dest) (jump : Jump) (s : State) : Host.Outcome State Fault Refusal :=
  compute Config.default (alu .raSubRd s.operands) dest jump s

/-- `rd&ra` (R118). -/
def execRdAndRa (dest : Dest) (jump : Jump) (s : State) : Host.Outcome State Fault Refusal :=
  compute Config.default (alu .rdAndRa s.operands) dest jump s

/-- `rd|ra` (R119). -/
def execRdOrRa (dest : Dest) (jump : Jump) (s : State) : Host.Outcome State Fault Refusal :=
  compute Config.default (alu .rdOrRa s.operands) dest jump s

end Sys2Proof.Machine
end

