-- ==== Sys2Proof/Machine/IllegalCode.lean ====
section
/-! DEFINITION. The illegal-code fallback (spec/42_compute_alu.md section 5). -/

namespace Sys2Proof.Machine

/-- A comp code of no operation: the result is the sentinel, the same for every code (R130, decision D3, log 4). -/
def execIllegalCompCode (_comp : BitVec 7) (dest : Dest) (jump : Jump) (s : State) :
    Host.Outcome State Fault Refusal :=
  compute Config.default Config.default.illegalCompResult dest jump s

end Sys2Proof.Machine
end

