-- ==== Sys2Proof/Machine/MemoryRead.lean ====
section
/-! DEFINITION. The compute instructions on `rm` (spec/42_compute_alu.md section 4). `rm` is the word the step has just refreshed it with (R81). -/

namespace Sys2Proof.Machine

/-- `rm` (R120). -/
def execPassRm (dest : Dest) (jump : Jump) (s : State) : Host.Outcome State Fault Refusal :=
  compute Config.default (alu .passRm s.operands) dest jump s

/-- `!rm` (R121). -/
def execNotRm (dest : Dest) (jump : Jump) (s : State) : Host.Outcome State Fault Refusal :=
  compute Config.default (alu .notRm s.operands) dest jump s

/-- `-rm` (R122). -/
def execNegRm (dest : Dest) (jump : Jump) (s : State) : Host.Outcome State Fault Refusal :=
  compute Config.default (alu .negRm s.operands) dest jump s

/-- `rm+1` (R123). -/
def execIncRm (dest : Dest) (jump : Jump) (s : State) : Host.Outcome State Fault Refusal :=
  compute Config.default (alu .incRm s.operands) dest jump s

/-- `rm-1` (R124). -/
def execDecRm (dest : Dest) (jump : Jump) (s : State) : Host.Outcome State Fault Refusal :=
  compute Config.default (alu .decRm s.operands) dest jump s

/-- `rd+rm` (R125). -/
def execRdAddRm (dest : Dest) (jump : Jump) (s : State) : Host.Outcome State Fault Refusal :=
  compute Config.default (alu .rdAddRm s.operands) dest jump s

/-- `rd-rm` (R126). -/
def execRdSubRm (dest : Dest) (jump : Jump) (s : State) : Host.Outcome State Fault Refusal :=
  compute Config.default (alu .rdSubRm s.operands) dest jump s

/-- `rm-rd` (R127). -/
def execRmSubRd (dest : Dest) (jump : Jump) (s : State) : Host.Outcome State Fault Refusal :=
  compute Config.default (alu .rmSubRd s.operands) dest jump s

/-- `rd&rm` (R128). -/
def execRdAndRm (dest : Dest) (jump : Jump) (s : State) : Host.Outcome State Fault Refusal :=
  compute Config.default (alu .rdAndRm s.operands) dest jump s

/-- `rd|rm` (R129). -/
def execRdOrRm (dest : Dest) (jump : Jump) (s : State) : Host.Outcome State Fault Refusal :=
  compute Config.default (alu .rdOrRm s.operands) dest jump s

end Sys2Proof.Machine
end

