-- ==== Sys2Proof/Machine/Dispatch.lean ====
section
/-! DEFINITION. The dispatch: one arm per constructor of Instr. -/

namespace Sys2Proof.Machine

def exec (i : Instr) (s : State) : Host.Outcome State Fault Refusal :=
  match i with
  | .address value => Sys2Proof.Machine.execAddress value s
  | .zero dest jump => Sys2Proof.Machine.execZero dest jump s
  | .one dest jump => Sys2Proof.Machine.execOne dest jump s
  | .minusOne dest jump => Sys2Proof.Machine.execMinusOne dest jump s
  | .passRd dest jump => Sys2Proof.Machine.execPassRd dest jump s
  | .passRa dest jump => Sys2Proof.Machine.execPassRa dest jump s
  | .notRd dest jump => Sys2Proof.Machine.execNotRd dest jump s
  | .notRa dest jump => Sys2Proof.Machine.execNotRa dest jump s
  | .negRd dest jump => Sys2Proof.Machine.execNegRd dest jump s
  | .negRa dest jump => Sys2Proof.Machine.execNegRa dest jump s
  | .incRd dest jump => Sys2Proof.Machine.execIncRd dest jump s
  | .incRa dest jump => Sys2Proof.Machine.execIncRa dest jump s
  | .decRd dest jump => Sys2Proof.Machine.execDecRd dest jump s
  | .decRa dest jump => Sys2Proof.Machine.execDecRa dest jump s
  | .rdAddRa dest jump => Sys2Proof.Machine.execRdAddRa dest jump s
  | .rdSubRa dest jump => Sys2Proof.Machine.execRdSubRa dest jump s
  | .raSubRd dest jump => Sys2Proof.Machine.execRaSubRd dest jump s
  | .rdAndRa dest jump => Sys2Proof.Machine.execRdAndRa dest jump s
  | .rdOrRa dest jump => Sys2Proof.Machine.execRdOrRa dest jump s
  | .passRm dest jump => Sys2Proof.Machine.execPassRm dest jump s
  | .notRm dest jump => Sys2Proof.Machine.execNotRm dest jump s
  | .negRm dest jump => Sys2Proof.Machine.execNegRm dest jump s
  | .incRm dest jump => Sys2Proof.Machine.execIncRm dest jump s
  | .decRm dest jump => Sys2Proof.Machine.execDecRm dest jump s
  | .rdAddRm dest jump => Sys2Proof.Machine.execRdAddRm dest jump s
  | .rdSubRm dest jump => Sys2Proof.Machine.execRdSubRm dest jump s
  | .rmSubRd dest jump => Sys2Proof.Machine.execRmSubRd dest jump s
  | .rdAndRm dest jump => Sys2Proof.Machine.execRdAndRm dest jump s
  | .rdOrRm dest jump => Sys2Proof.Machine.execRdOrRm dest jump s
  | .illegalCompCode comp dest jump => Sys2Proof.Machine.execIllegalCompCode comp dest jump s

end Sys2Proof.Machine
end

