-- ==== Sys2Proof/Machine/Fetch.lean ====
section
/-! DEFINITION. What a step does around `exec` (spec/40_step_cycle.md R80 to R82), for Step.lean to call, and the same
step with the parameters as an argument. -/

namespace Sys2Proof.Machine

/-- The whole step at the default parameters: refresh `rm`, fetch, decode, execute (R80). -/
def stepDefault (s : State) : Host.Outcome State Fault Refusal :=
  match refreshRm Config.default s with
  | .error f => .fault f
  | .ok s₁ => exec (decode (fetch s₁)) s₁

/-- The effect of an instruction under any parameters: `exec` is this at `Config.default`. -/
def execWith (c : Config) (i : Instr) (s : State) : Host.Outcome State Fault Refusal :=
  match i.shape with
  | .address value => loadAddress c value s
  | .compute op dest jump => compute c (alu op s.operands) dest jump s
  | .illegal _ dest jump => compute c c.illegalCompResult dest jump s

/-- The whole step under any parameters (R80, R5): `step` is this at `Config.default`. -/
def stepWith (c : Config) (s : State) : Host.Outcome State Fault Refusal :=
  match refreshRm c s with
  | .error f => .fault f
  | .ok s₁ => execWith c (decodeWith c (fetch s₁)) s₁

/-- Put an instruction word at the address the next step fetches from: it stands for the host's load of a program (log 16). -/
def placeWord (s : State) (nbits w : Nat) : State :=
  { s with imem := s.imem.write (addr15 s.pc) (BitVec.ofNat 16 (w % 2 ^ nbits)) }

end Sys2Proof.Machine
end

