-- ==== Sys2Proof/Machine/Step.lean ====
section
/-! DEFINITION. One step of the machine (spec/45_engine_operations.md R175). -/

namespace Sys2Proof.Machine

/-- One tick: exactly one instruction (R80, R175), at the default parameters. -/
def step (s : State) : Host.Outcome State Fault Refusal := stepDefault s

/-- `s` with an instruction word stored where `step` fetches its next instruction. -/
def State.withFetchWord (s : State) (nbits w : Nat) : State := placeWord s nbits w

end Sys2Proof.Machine
end

