-- ==== Sys2Proof/Machine/HostOps.lean ====
section
/-! DEFINITION. The public operations, through which a host drives the core between steps (spec/45_engine_operations.md,
spec/70_reset_and_hazards.md, spec/20_memory.md R31 to R34). Each takes the parameters as an argument where it depends on
them. A host operation that is turned away changes no state (R204, R215). -/

namespace Sys2Proof.Machine

/-- `run(n)`: exactly `n` steps, no early exit (R176); a step without outcome has no state to go on from. -/
def runWith (c : Config) : Nat → State → Host.Outcome State Fault Refusal
  | 0, s => .next s
  | n + 1, s =>
    match stepWith c s with
    | .next t => runWith c n t
    | .fault f => .fault f
    | .refused r => .refused r

/-- `read_data(addr)` (R32, R180). -/
def readData (a : Addr) (s : State) : Word := s.dmem.read a

/-- `read_instruction(addr)` (R31, R180). -/
def readInstruction (a : Addr) (s : State) : Word := s.imem.read a

/-- `write_data(addr, value)` by the host: the core's own data write; an address of 32768 or more is refused (R34, R179,
decision D18). -/
def writeData (a : Nat) (v : Word) (s : State) : Except HostError State :=
  if a < dmemWords then .ok (memWrite (BitVec.ofNat 15 a) v s) else .error .addressOutOfRange

/-- `set_program_counter(addr)`: `pc` and nothing else (R177); the value is kept below 32768 (decision D11, log 12). -/
def setProgramCounter (c : Config) (a : Word) (s : State) : Except HostError State :=
  match c.pcOverflow with
  | .wrap => .ok (s.setPc (zext16 (addr15 a)))
  | .fault => if a.getLsbD 15 then .error .pcOutOfRange else .ok (s.setPc (zext16 (addr15 a)))

/-- `reset()`: registers and data memory zero, instruction memory kept, no event emitted (R212, R213, decision D9, log 10). -/
def resetMachine (s : State) : State :=
  { s with pc := 0, ra := 0, rd := 0, rm := 0, dmem := [] }

/-- `load_program(words)`: the whole image is replaced, its tail zero; more than 32768 words are a `LoadError` (R214, R215,
decision D10, log 11). -/
def loadProgram (words : List Word) (s : State) : Except HostError State :=
  if imemWords < words.length then .error .programTooLong
  else .ok { s with imem := Memory.ofWords 0 words }

/-! ### The program text format (R76, log 23) -/

/-- The bit a character of program text stands for. -/
def bitOfChar (ch : Char) : Option Bool :=
  if ch = '0' then some false else if ch = '1' then some true else none

/-- The word of a run of binary characters, most significant bit first. -/
def parseBits : List Char → Word → Option Word
  | [], w => some w
  | ch :: rest, w =>
    match bitOfChar ch with
    | none => none
    | some b => parseBits rest (w <<< 1 ||| (BitVec.ofBool b).setWidth 16)

/-- One line: exactly 16 binary characters. -/
def parseLine (line : List Char) : Option Word :=
  if line.length = 16 then parseBits line 0 else none

/-- The words of a program text, in line order; a malformed line is a `LoadError` (R204). -/
def parseProgram : List (List Char) → Except HostError (List Word)
  | [] => .ok []
  | line :: rest =>
    match parseLine line with
    | none => .error .malformedLine
    | some w =>
      match parseProgram rest with
      | .error e => .error e
      | .ok ws => .ok (w :: ws)

/-- A word written as a line of program text. -/
def renderWord (w : Word) : List Char :=
  (List.range 16).map fun i => if w.getLsbD (15 - i) then '1' else '0'

/-- Load a program text: parse, and load only if every line is well formed (R215). -/
def loadText (lines : List (List Char)) (s : State) : Except HostError State :=
  match parseProgram lines with
  | .error e => .error e
  | .ok words => loadProgram words s

/-! ### Host sessions -/

/-- A call the host can make between steps (R182). -/
inductive HostOp where
  | step
  | run (n : BitVec 32)
  | setProgramCounter (a : Word)
  | reset
  | readData (a : Addr)
  | readInstruction (a : Addr)
  | writeData (a : Nat) (v : Word)
  | loadProgram (words : List Word)
  | loadText (lines : List (List Char))
  deriving DecidableEq, Repr

/-- What a call answers. -/
inductive HostReply where
  /-- Done, with the state it leaves. -/
  | done (s : State)
  /-- A read: its value; the state is unchanged. -/
  | value (w : Word)
  /-- Turned away; the state is unchanged. -/
  | rejected (e : HostError)
  /-- A step had no outcome, which only the `fault` parameters can cause (R192). -/
  | stuck (f : Fault)
  /-- A step met an instruction that is not modelled; there is none. -/
  | refused (r : Refusal)
  deriving DecidableEq, Repr

/-- The reply to an operation that can be turned away. -/
def replyOf : Except HostError State → HostReply
  | .error e => .rejected e
  | .ok s => .done s

/-- The reply to an operation that steps. -/
def replyOfOutcome : Host.Outcome State Fault Refusal → HostReply
  | .next s => .done s
  | .fault f => .stuck f
  | .refused r => .refused r

/-- One call (R182). -/
def hostCall (c : Config) (op : HostOp) (s : State) : HostReply :=
  match op with
  | .step => replyOfOutcome (stepWith c s)
  | .run n => replyOfOutcome (runWith c n.toNat s)
  | .setProgramCounter a => replyOf (setProgramCounter c a s)
  | .reset => .done (resetMachine s)
  | .readData a => .value (readData a s)
  | .readInstruction a => .value (readInstruction a s)
  | .writeData a v => replyOf (writeData a v s)
  | .loadProgram words => replyOf (loadProgram words s)
  | .loadText lines => replyOf (loadText lines s)

/-- The state a call leaves: none only where a step had no outcome. -/
def stateAfter (s : State) : HostReply → Option State
  | .done t => some t
  | .value _ => some s
  | .rejected _ => some s
  | .stuck _ => none
  | .refused _ => none

/-- The state a session of calls leaves. -/
def session (c : Config) : List HostOp → State → Option State
  | [], s => some s
  | op :: rest, s =>
    match stateAfter s (hostCall c op s) with
    | none => none
    | some t => session c rest t

/-! ### A schedule of host writes (`HOST_WRITES`, R5, decision D12, log 13) -/

/-- The host writes of step index `k`. DESIGN CHOICE, unsafe: they are done before step `k` (log 28), in the order the schedule lists
them (log 27); R5 and decision D12 say only that they are a set and fall between steps. -/
def hostWritesAt (c : Config) (k : Nat) (s : State) : State :=
  (c.hostWrites.filter fun hw => hw.stepIndex == k).foldl (fun t hw => memWrite hw.addr hw.value t) s

/-- `n` steps from step index `k` on, each after its scheduled host writes (DESIGN CHOICE, unsafe: before the step and not after it,
log 28). -/
def runScheduled (c : Config) : Nat → Nat → State → Host.Outcome State Fault Refusal
  | _, 0, s => .next s
  | k, n + 1, s =>
    match stepWith c (hostWritesAt c k s) with
    | .next t => runScheduled c (k + 1) n t
    | .fault f => .fault f
    | .refused r => .refused r

end Sys2Proof.Machine
end

