-- ==== Sys2Proof/Safety.lean ====
section
/-! DEFINITION. What claims are stated in: the invariant of reachable states (spec/10_state.md R25), reachability through
host sessions, the terminal states of spec/45_engine_operations.md R181, and the picture a display sink would hold
(spec/20_memory.md R47). None of these is machine behaviour. -/

namespace Sys2Proof.Machine

/-- A pixel event inside the 512x256 bitmap (R19, R41). -/
def PixelEvent.inBitmap (e : PixelEvent) : Prop :=
  e.x < screenWidth ∧ e.y < screenHeight

/-- What holds in every reachable state (R25, R11, R19): `pc` below 32768, both memories in canonical form, every event
inside the bitmap. `ra` has no invariant (R25). -/
structure State.Inv (s : State) : Prop where
  pcInRange : s.pc.toNat < imemWords
  imemCanonical : s.imem.wf = true
  dmemCanonical : s.dmem.wf = true
  eventsInBitmap : ∀ e ∈ s.events, e.inBitmap

/-- The states a host can bring the machine to from creation, by any session of calls (R182). -/
def Reachable (c : Config) (s : State) : Prop :=
  ∃ ops : List HostOp, session c ops State.reset = some s

/-- A safe step: it has a next state (R190, R205). -/
def Completes (s : State) : Prop :=
  ∃ t, step s = .next t

/-- The terminal states of R181, a definition for claims (decision D15, log 15): the state sits in a two-instruction loop
`L: @L`, `L+1:` a compute instruction with dest 0 and jump 7. -/
def Terminal (loop : Nat) (s : State) : Prop :=
  loop + 1 < imemWords ∧
  s.imem.read (BitVec.ofNat 15 loop) = BitVec.ofNat 16 loop ∧
  isCompute (s.imem.read (BitVec.ofNat 15 (loop + 1))) = true ∧
  destField (s.imem.read (BitVec.ofNat 15 (loop + 1))) = 0 ∧
  jumpField (s.imem.read (BitVec.ofNat 15 (loop + 1))) = 7 ∧
  (s.pc = BitVec.ofNat 16 loop ∨ (s.pc = BitVec.ofNat 16 (loop + 1) ∧ s.ra = BitVec.ofNat 16 loop))

/-- Whether pixel `(x, y)` is on in the picture of a sink that starts with every pixel off and applies every event (R47). -/
def picture (events : List PixelEvent) (x y : Nat) : Bool :=
  events.foldl (fun on e => if e.x = x ∧ e.y = y then e.on else on) false

/-- The bit of data memory that stands for pixel `(x, y)`: bit `15 - (x mod 16)` of `dmem[0x4000 + 32*y + x/16]` (R41, R47). -/
def displayBit (dmem : Memory) (x y : Nat) : Bool :=
  (dmem.read (BitVec.ofNat 15 (screenBase + wordsPerRow * y + x / pixelsPerWord))).getLsbD (15 - x % pixelsPerWord)

/-- The sink's picture agrees with data memory (R47). -/
def PictureAgrees (s : State) : Prop :=
  ∀ x y, x < screenWidth → y < screenHeight → picture s.events x y = displayBit s.dmem x y

end Sys2Proof.Machine
end

