-- ==== Sys2Proof/Certificates/Slice0/Obligations.lean ====
section
/-! DEFINITION. The statements about the model. The first section holds the words they are stated in, written from the
spec's arithmetic (spec/00_scope.md R7) and not from the model's operations. -/

namespace Sys2Proof.Claims

open Sys2Proof.Machine

/-- `u16(n)`: the integer reduced modulo 65536 (R7). -/
def u16 (n : Int) : Word := BitVec.ofInt 16 n

/-- `not16(v) = 65535 - v` (R7). -/
def inverted (v : Word) : Word := BitVec.ofNat 16 (65535 - v.toNat)

/-- Whether a jump code fires on a result, by the sign class of the result: bit 2 negative, bit 1 zero, bit 0 positive (R155). -/
def fires (jump : Jump) (r : Word) : Bool :=
  (jump.code.getLsbD 2 && r.getLsbD 15) ||
  (jump.code.getLsbD 1 && r == 0) ||
  (jump.code.getLsbD 0 && (r != 0 && !r.getLsbD 15))

/-- The 16 events of a write of `v` at the data address `a`, spelled out (R40). -/
def sixteenEvents (a : Nat) (v : Word) : List PixelEvent :=
  [0, 1, 2, 3, 4, 5, 6, 7, 8, 9, 10, 11, 12, 13, 14, 15].map fun i =>
    { x := (a - 16384) % 32 * 16 + i, y := (a - 16384) / 32, on := v.getLsbD (15 - i) }

/-- What a compute instruction with result `r` leaves at the default parameters: its destinations, its jump and its frame
(R89 for a state whose `rm` is already refreshed). The stored word is the one at the low 15 bits of the NEW `ra`; for a form
that stores nothing every word reads as before. -/
structure AfterCompute (r : Word) (dest : Dest) (jump : Jump) (s t : State) : Prop where
  ra : t.ra = if dest.ra then r else s.ra
  rd : t.rd = if dest.rd then r else s.rd
  rm : t.rm = s.rm
  imem : t.imem = s.imem
  stored : ∀ a : Addr, t.dmem.read a = if dest.mem = true ∧ a = addr15 t.ra then r else s.dmem.read a
  events : t.events = s.events ++
    if dest.mem = true ∧ 16384 ≤ t.ra.toNat % 32768 ∧ t.ra.toNat % 32768 < 24576
      then sixteenEvents (t.ra.toNat % 32768) r else []
  pc : t.pc.toNat = if fires jump r then t.ra.toNat % 32768 else (s.pc.toNat + 1) % 32768

/-- The instruction completes with result `r`. -/
def CompletesWith (i : Instr) (r : Word) (dest : Dest) (jump : Jump) (s : State) : Prop :=
  ∃ t, exec i s = .next t ∧ AfterCompute r dest jump s t

/-- The result of a compute word, by its 7-bit comp code read as a number: the rows of R66 with the meanings of R102 to R129 in
the arithmetic of R7, and the sentinel for every other code (R130). The codes are the spec's from general knowledge (log 5),
row 0x33 rests on decision D5 (log 6), the wrap of the negations of 0x8000 in rows 0x0F, 0x33 and 0x73 on decision D8 (log 9), and
the number 1337 on decision D3 (log 4). -/
def tableResult (code : Nat) (ra rd rm : Word) : Word :=
  match code with
  | 0x2A => u16 0
  | 0x3F => u16 1
  | 0x3A => u16 (-1)
  | 0x0C => rd
  | 0x30 => ra
  | 0x0D => inverted rd
  | 0x31 => inverted ra
  | 0x0F => u16 (-rd.toInt)
  | 0x33 => u16 (-ra.toInt)
  | 0x1F => u16 (rd.toInt + 1)
  | 0x37 => u16 (ra.toInt + 1)
  | 0x0E => u16 (rd.toInt - 1)
  | 0x32 => u16 (ra.toInt - 1)
  | 0x02 => u16 (rd.toInt + ra.toInt)
  | 0x13 => u16 (rd.toInt - ra.toInt)
  | 0x07 => u16 (ra.toInt - rd.toInt)
  | 0x00 => rd &&& ra
  | 0x15 => rd ||| ra
  | 0x70 => rm
  | 0x71 => inverted rm
  | 0x73 => u16 (-rm.toInt)
  | 0x77 => u16 (rm.toInt + 1)
  | 0x72 => u16 (rm.toInt - 1)
  | 0x42 => u16 (rd.toInt + rm.toInt)
  | 0x53 => u16 (rd.toInt - rm.toInt)
  | 0x47 => u16 (rm.toInt - rd.toInt)
  | 0x40 => rd &&& rm
  | 0x55 => rd ||| rm
  | _ => 1337

/-- Whether a jump field fires on a result read as a signed number: the rows of R156 to R163. -/
def fieldFires (field : Nat) (r : Word) : Prop :=
  match field with
  | 0 => False
  | 1 => 0 < r.toInt
  | 2 => r.toInt = 0
  | 3 => 0 ≤ r.toInt
  | 4 => r.toInt < 0
  | 5 => r.toInt ≠ 0
  | 6 => r.toInt ≤ 0
  | _ => True

/-- The per-step effect summary (R89) of the word `inst` at `pc`, in terms of the word's bits alone. -/
structure StepSummary (inst : Word) (s t : State) : Prop where
  rm : t.rm = s.dmem.read (addr15 s.ra)
  imem : t.imem = s.imem
  addressClass : inst.toNat < 32768 →
    t.ra = inst ∧ t.rd = s.rd ∧ t.dmem = s.dmem ∧ t.events = s.events ∧
    t.pc.toNat = (s.pc.toNat + 1) % 32768
  computeClass : 32768 ≤ inst.toNat →
    ∀ r, r = tableResult (inst.toNat / 64 % 128) s.ra s.rd (s.dmem.read (addr15 s.ra)) →
      (t.ra = if inst.toNat / 32 % 2 = 1 then r else s.ra) ∧
      (t.rd = if inst.toNat / 16 % 2 = 1 then r else s.rd) ∧
      (∀ a : Addr, t.dmem.read a =
        if inst.toNat / 8 % 2 = 1 ∧ a.toNat = t.ra.toNat % 32768 then r else s.dmem.read a) ∧
      (t.events = s.events ++
        if inst.toNat / 8 % 2 = 1 ∧ 16384 ≤ t.ra.toNat % 32768 ∧ t.ra.toNat % 32768 < 24576
          then sixteenEvents (t.ra.toNat % 32768) r else []) ∧
      (fieldFires (inst.toNat % 8) r → t.pc.toNat = t.ra.toNat % 32768) ∧
      (¬ fieldFires (inst.toNat % 8) r → t.pc.toNat = (s.pc.toNat + 1) % 32768)

/-- The `ra` that a parameter chooses for a compute instruction with result `r`: the one before its `ra` write or the one
after it (R5, R150, R165). -/
def chosenRa (choice : RaChoice) (dest : Dest) (r : Word) (s : State) : Word :=
  RaChoice.pick choice s.ra (if dest.ra then r else s.ra)

/-- The address a compute instruction stores to under any parameters: the low 15 bits of what `MEM_WRITE_ADDR` chooses (R150). -/
def storeTarget (c : Config) (dest : Dest) (r : Word) (s : State) : Addr :=
  addr15 (chosenRa c.memWriteAddr dest r s)

/-- `i` is a compute instruction with destinations `d` and jump `j`, and `r` is its result in the state `s`: the ALU's on the
registers of `s` (R100), or the sentinel when the comp code is illegal (R130). -/
inductive ComputeResult (c : Config) (d : Dest) (j : Jump) (s : State) : Instr → Word → Prop where
  | operation (op : AluOp) : ComputeResult c d j s (Instr.ofOp op d j) (alu op s.operands)
  | illegal (comp : BitVec 7) : ComputeResult c d j s (.illegalCompCode comp d j) c.illegalCompResult

/-- In the step from `s` the word at `pc` is a compute instruction with destinations `d`, jump `j` and result `r`. -/
def StepComputes (c : Config) (s : State) (d : Dest) (j : Jump) (r : Word) : Prop :=
  ComputeResult c d j { s with rm := s.dmem.read (addr15 s.ra) } (decodeWith c (s.imem.read (addr15 s.pc))) r

/-- A register value that `ADDR_POLICY` lets through as an address (R33, U2). -/
def Presentable (c : Config) (v : Word) : Prop :=
  c.addrPolicy = .mask ∨ v.toNat < 32768

/-- The store of `r` goes to the word at `r`, and the word at the old `ra` keeps its value unless that is the same word. -/
def SparesTheWordRead (r : Word) (s t : State) : Prop :=
  t.dmem.read (addr15 r) = r ∧ (addr15 r ≠ addr15 s.ra → t.dmem.read (addr15 s.ra) = s.dmem.read (addr15 s.ra))

/-- Every enabled destination of the instruction receives `r`. -/
def StoresOneValue (c : Config) (i : Instr) (d : Dest) (r : Word) (s : State) : Prop :=
  ∀ t : State, execWith c i s = .next t →
    (d.ra = true → t.ra = r) ∧ (d.rd = true → t.rd = r) ∧
    (d.mem = true → t.dmem.read (storeTarget c d r s) = r)

/-- The host calls that a schedule of host writes makes of `n` steps from step index `k` on: before each step its writes (the
model's choice, log 28), in the order the schedule lists them (log 27). -/
def scheduledCalls (c : Config) : Nat → Nat → List HostOp
  | _, 0 => []
  | k, n + 1 =>
    (c.hostWrites.filter fun hw => hw.stepIndex == k).map (fun hw => HostOp.writeData hw.addr.toNat hw.value)
      ++ HostOp.step :: scheduledCalls c (k + 1) n

/-- A line of program text as R76 wants it. -/
def WellFormedLine (line : List Char) : Prop :=
  line.length = 16 ∧ ∀ ch ∈ line, ch = '0' ∨ ch = '1'

/-- The step of a state whose next state is known, and what that state's run then is. -/
def thenRun (c : Config) (m : Nat) : Host.Outcome State Fault Refusal → Host.Outcome State Fault Refusal
  | .next t => runWith c m t
  | .fault f => .fault f
  | .refused r => .refused r

end Sys2Proof.Claims

open Sys2Proof Sys2Proof.Machine Sys2Proof.Claims

/-! ### Encoding and decoding -/

/-- R72: decoding the encoding of a well-formed instruction gives it back, for every operand, under every injective comp
code table and with or without `-ra`. -/
def Obligations.DecodeInvertsEncode : Prop :=
  ∀ c : Config, c.CodesInjective → ∀ i : Instr, i.wellFormedIn c = true → decodeWith c (encodeWith c i) = i

/-- R63, R70, R72: encoding what a word decodes to gives that word back, but for bits 14:13 of a compute word, which the
decoder ignores and the encoder sets. -/
def Obligations.EncodeInvertsDecodeButForIgnoredBits : Prop :=
  ∀ (c : Config) (w : Word),
    encodeWith c (decodeWith c w) = if 32768 ≤ w.toNat then w ||| 0x6000 else w

/-- R70, R71: every word decodes to a well-formed instruction, under every parameter setting. -/
def Obligations.EveryWordDecodesToAWellFormedInstruction : Prop :=
  ∀ (c : Config) (w : Word), (decodeWith c w).wellFormedIn c = true

/-- R63: two compute words that differ only in bits 14:13 are the same instruction, under every parameter setting. -/
def Obligations.IgnoredBitsTakeNoPartInDecoding : Prop :=
  ∀ (c : Config) (w₁ w₂ : Word), 32768 ≤ w₁.toNat → 32768 ≤ w₂.toNat → w₁.toNat % 8192 = w₂.toNat % 8192 →
    decodeWith c w₁ = decodeWith c w₂

/-- R61 (and R60): bit 15 alone selects the class, under every parameter setting; the words 0x0000 to 0x7FFF are the address
instructions, and the remaining 15 bits are the literal loaded into `ra`. -/
def Obligations.TopBitSelectsTheInstructionClass : Prop :=
  ∀ (c : Config) (w : Word),
    (w.toNat < 32768 → ∃ v : Addr, decodeWith c w = .address v ∧ v.toNat = w.toNat ∧
      ∀ s t : State, execWith c (.address v) s = .next t → t.ra.toNat = w.toNat) ∧
    (32768 ≤ w.toNat → ∀ v : Addr, decodeWith c w ≠ .address v)

/-- Words of the spec's decoder vectors (spec/95_test_vectors.md V1), one or more of each family, at the default comp code
table. The comp codes are the spec's from general knowledge (PRESUMED, decision D4, log 5), and 0x8C10 has bits 14:13 at 00 (log 19). -/
def Obligations.WrittenOutWordsDecode : Prop :=
  decode 0x6000 = .address 24576 ∧
  decode 0xEA87 = .zero ⟨false, false, false⟩ .jmp ∧
  decode 0xE302 = .passRd ⟨false, false, false⟩ .jeq ∧
  decode 0x8C10 = .passRa ⟨false, true, false⟩ .never ∧
  decode 0xE7F8 = .incRd ⟨true, true, true⟩ .never ∧
  decode 0xFC10 = .passRm ⟨false, true, false⟩ .never ∧
  decode 0xF088 = .rdAddRm ⟨false, false, true⟩ .never ∧
  decode 0xFA90 = .illegalCompCode 0x6A ⟨false, true, false⟩ .never ∧
  decode 0xFFFF = .illegalCompCode 0x7F ⟨true, true, true⟩ .jmp

/-- R67: at the default parameters exactly 100 of the 128 comp codes belong to no operation. The codes are PRESUMED (decision D4,
log 5), and `-ra` is among the operations (decision D5, log 6). -/
def Obligations.HundredCompCodesAreIllegal : Prop :=
  ((List.range 128).filter fun n => (Config.default.opOfCode (BitVec.ofNat 7 n)).isNone).length = 100

/-! ### The step -/

/-- R80 to R83: when the word at `pc` decodes to a well-formed instruction, a step refreshes `rm` from the data word at the
low 15 bits of the old `ra` (decision D1, log 2) and executes that instruction, and does nothing else. -/
def Obligations.StepRunsTheDecodedInstruction : Prop :=
  ∀ (s : State) (i : Instr), decode (s.imem.read (addr15 s.pc)) = i → i.wellFormed = true →
    step s = exec i { s with rm := s.dmem.read (addr15 s.ra) }

/-- R87, R190, R205: at the default parameters every instruction in every state, and every step, has a next state. The
masking of addresses (log 2) and the wrap of `pc` (log 3) are the spec's decisions D1 and D2. -/
def Obligations.EveryStepHasANextState : Prop :=
  (∀ (i : Instr) (s : State), ∃ t, exec i s = .next t) ∧ ∀ s : State, Completes s

/-- R89: the whole step, from the bits of the word at `pc`, with the comp codes, the sentinel, the masking, the wrap and the two new-`ra`
choices of the default parameters, and the wrapping negation (decisions D1 to D8, logs 2 to 9). -/
def Obligations.StepHasTheWordLevelEffect : Prop :=
  ∀ s : State, ∃ t, step s = .next t ∧ StepSummary (s.imem.read (addr15 s.pc)) s t

/-- Log 16: the word that `withFetchWord` places is the one the very next step runs, in a state that differs in nothing but
that instruction word. -/
def Obligations.PlacedWordIsTheNextOneRun : Prop :=
  ∀ (s : State) (w : Word),
    step (s.withFetchWord 16 w.toNat)
      = exec (decode w) { s.withFetchWord 16 w.toNat with rm := s.dmem.read (addr15 s.ra) } ∧
    (∀ a : Addr, a ≠ addr15 s.pc → (s.withFetchWord 16 w.toNat).imem.read a = s.imem.read a) ∧
    s.withFetchWord 16 w.toNat = { s with imem := (s.withFetchWord 16 w.toNat).imem }

/-- R81, R92: every step of either class, under every parameter setting, ends with `rm` holding the data word at the low 15
bits of the old `ra` (decision D1, log 2), read before any write of the step. -/
def Obligations.EveryStepRefreshesRm : Prop :=
  ∀ (c : Config) (s t : State), stepWith c s = .next t → t.rm = s.dmem.read (addr15 s.ra)

/-- R14, R88: no step can observe a stale `rm`. -/
def Obligations.StaleRmIsNeverObserved : Prop :=
  ∀ (c : Config) (s : State) (v : Word), stepWith c { s with rm := v } = stepWith c s

/-! ### The instructions: completion, result and frame -/

/-- R90, R91: the address instruction completes in every state: `ra` is the literal, `pc` advances (modulo 32768, decision
D2, log 3), everything else is unchanged. -/
def Obligations.AddressInstructionCompletes : Prop :=
  ∀ (value : Addr) (s : State), ∃ t, exec (.address value) s = .next t ∧
    t.ra.toNat = value.toNat ∧ t.pc.toNat = (s.pc.toNat + 1) % 32768 ∧
    t.rd = s.rd ∧ t.rm = s.rm ∧ t.imem = s.imem ∧ (∀ a : Addr, t.dmem.read a = s.dmem.read a) ∧ t.events = s.events

/-- R102 to R104, with the destinations of R140 and the jumps of R155: `0`, `1`, `-1` complete in every state. -/
def Obligations.ConstantInstructionsComplete : Prop :=
  ∀ (d : Dest) (j : Jump) (s : State),
    CompletesWith (.zero d j) (u16 0) d j s ∧
    CompletesWith (.one d j) (u16 1) d j s ∧
    CompletesWith (.minusOne d j) (u16 (-1)) d j s

/-- R105 to R114: the one-operand operations on `rd` and `ra` complete in every state. The negation of 0x8000 wraps (decision D8,
log 9) and `-ra` is present (decision D5, log 6). -/
def Obligations.UnaryDataAddressInstructionsComplete : Prop :=
  ∀ (d : Dest) (j : Jump) (s : State),
    CompletesWith (.passRd d j) s.rd d j s ∧
    CompletesWith (.passRa d j) s.ra d j s ∧
    CompletesWith (.notRd d j) (inverted s.rd) d j s ∧
    CompletesWith (.notRa d j) (inverted s.ra) d j s ∧
    CompletesWith (.negRd d j) (u16 (-s.rd.toInt)) d j s ∧
    CompletesWith (.negRa d j) (u16 (-s.ra.toInt)) d j s ∧
    CompletesWith (.incRd d j) (u16 (s.rd.toInt + 1)) d j s ∧
    CompletesWith (.incRa d j) (u16 (s.ra.toInt + 1)) d j s ∧
    CompletesWith (.decRd d j) (u16 (s.rd.toInt - 1)) d j s ∧
    CompletesWith (.decRa d j) (u16 (s.ra.toInt - 1)) d j s

/-- R115 to R119: the two-operand operations on `rd` and `ra` complete in every state. -/
def Obligations.BinaryDataAddressInstructionsComplete : Prop :=
  ∀ (d : Dest) (j : Jump) (s : State),
    CompletesWith (.rdAddRa d j) (u16 (s.rd.toInt + s.ra.toInt)) d j s ∧
    CompletesWith (.rdSubRa d j) (u16 (s.rd.toInt - s.ra.toInt)) d j s ∧
    CompletesWith (.raSubRd d j) (u16 (s.ra.toInt - s.rd.toInt)) d j s ∧
    CompletesWith (.rdAndRa d j) (s.rd &&& s.ra) d j s ∧
    CompletesWith (.rdOrRa d j) (s.rd ||| s.ra) d j s

/-- R120 to R124: the one-operand operations on `rm` complete in every state; the negation of 0x8000 wraps (decision D8, log 9). -/
def Obligations.UnaryMemoryInstructionsComplete : Prop :=
  ∀ (d : Dest) (j : Jump) (s : State),
    CompletesWith (.passRm d j) s.rm d j s ∧
    CompletesWith (.notRm d j) (inverted s.rm) d j s ∧
    CompletesWith (.negRm d j) (u16 (-s.rm.toInt)) d j s ∧
    CompletesWith (.incRm d j) (u16 (s.rm.toInt + 1)) d j s ∧
    CompletesWith (.decRm d j) (u16 (s.rm.toInt - 1)) d j s

/-- R125 to R129: the two-operand operations on `rd` and `rm` complete in every state. -/
def Obligations.BinaryMemoryInstructionsComplete : Prop :=
  ∀ (d : Dest) (j : Jump) (s : State),
    CompletesWith (.rdAddRm d j) (u16 (s.rd.toInt + s.rm.toInt)) d j s ∧
    CompletesWith (.rdSubRm d j) (u16 (s.rd.toInt - s.rm.toInt)) d j s ∧
    CompletesWith (.rmSubRd d j) (u16 (s.rm.toInt - s.rd.toInt)) d j s ∧
    CompletesWith (.rdAndRm d j) (s.rd &&& s.rm) d j s ∧
    CompletesWith (.rdOrRm d j) (s.rd ||| s.rm) d j s

/-- R130: an instruction with an illegal comp code completes in every state with the sentinel, whatever the code. The number
1337 is decision D3 (log 4). -/
def Obligations.IllegalCodeInstructionsComplete : Prop :=
  ∀ (comp : BitVec 7) (d : Dest) (j : Jump) (s : State),
    CompletesWith (.illegalCompCode comp d j) (u16 1337) d j s

/-- R130: under every parameter setting all illegal codes act alike, and their result reads no register. -/
def Obligations.IllegalCodesAllActAlike : Prop :=
  ∀ (c : Config) (w₁ w₂ : BitVec 7) (d : Dest) (j : Jump) (s t : State),
    execWith c (.illegalCompCode w₁ d j) s = execWith c (.illegalCompCode w₂ d j) s ∧
    (execWith c (.illegalCompCode w₁ d j) s = .next t → d.rd = true → t.rd = c.illegalCompResult)

/-! ### Destinations and jumps -/

/-- R151: under every parameter setting all destinations of a compute instruction receive one value, the ALU's result on the
registers before the instruction, or the sentinel for an illegal code. -/
def Obligations.OneValueForAllDestinations : Prop :=
  ∀ (c : Config) (d : Dest) (j : Jump) (s : State),
    (∀ op : AluOp, StoresOneValue c (Instr.ofOp op d j) d (alu op s.operands) s) ∧
    ∀ comp : BitVec 7, StoresOneValue c (.illegalCompCode comp d j) d c.illegalCompResult s

/-- R140, R141, R150: under every parameter setting, for every compute instruction, the illegal codes among them, a destination
that is not enabled keeps its value, and of data memory at most the one word stored to changes. -/
def Obligations.DisabledDestinationsKeepTheirValue : Prop :=
  ∀ (c : Config) (d : Dest) (j : Jump) (s : State) (i : Instr) (r : Word), ComputeResult c d j s i r →
    ∀ t : State, execWith c i s = .next t →
      (d.ra = false → t.ra = s.ra) ∧
      (d.rd = false → t.rd = s.rd) ∧
      (∀ a : Addr, (d.mem = true → a ≠ storeTarget c d r s) → t.dmem.read a = s.dmem.read a) ∧
      (d.mem = false → t.events = s.events) ∧
      t.rm = s.rm ∧ t.imem = s.imem

/-- R220, from the new-`ra` write address (decision D6, log 7): a compute instruction of any comp code with both `ra` and memory as
destinations leaves the word that was read as it was, unless the result is its own address. At the default parameters, and at
any others with `MEM_WRITE_ADDR = new_ra`; the addresses are the low 15 bits (decision D1, log 2). -/
def Obligations.AddressAndMemoryDestinationsSpareTheWordRead : Prop :=
  (∀ (d : Dest) (j : Jump) (s : State) (i : Instr) (r : Word), ComputeResult Config.default d j s i r →
    d.ra = true → d.mem = true → ∀ t : State, exec i s = .next t → SparesTheWordRead r s t) ∧
  ∀ (c : Config) (d : Dest) (j : Jump) (s : State) (i : Instr) (r : Word), ComputeResult c d j s i r →
    c.memWriteAddr = .newRa → d.ra = true → d.mem = true →
    ∀ t : State, execWith c i s = .next t → SparesTheWordRead r s t

/-- R155: the jump condition is the sign class of the result selected by the bits of the jump code. -/
def Obligations.JumpConditionIsTheSelectedSignClass : Prop :=
  ∀ (j : Jump) (r : Word), jumpCond j r = fires j r

/-- R156 to R163: the results on which each jump code is taken, as ranges of the unsigned word. -/
def Obligations.JumpConditionsAsUnsignedRanges : Prop :=
  ∀ r : Word,
    jumpCond .never r = false ∧
    (jumpCond .jgt r = true ↔ 1 ≤ r.toNat ∧ r.toNat ≤ 0x7FFF) ∧
    (jumpCond .jeq r = true ↔ r.toNat = 0) ∧
    (jumpCond .jge r = true ↔ r.toNat ≤ 0x7FFF) ∧
    (jumpCond .jlt r = true ↔ 0x8000 ≤ r.toNat) ∧
    (jumpCond .jne r = true ↔ r.toNat ≠ 0) ∧
    (jumpCond .jle r = true ↔ r.toNat = 0 ∨ 0x8000 ≤ r.toNat) ∧
    jumpCond .jmp r = true

/-! ### The parameters -/

/-- R33, R165, R166, R150: whatever the parameters, an outcome of a compute instruction of any comp code, the illegal ones among
them, has `pc` at the low 15 bits of the `ra` that `JUMP_TARGET` chooses, or at the next address. -/
def Obligations.ProgramCounterUnderAnyParameters : Prop :=
  ∀ (c : Config) (d : Dest) (j : Jump) (s : State) (i : Instr) (r : Word), ComputeResult c d j s i r →
    ∀ t : State, execWith c i s = .next t →
      t.pc.toNat =
        if fires j r then (RaChoice.pick c.jumpTarget s.ra t.ra).toNat % 32768
        else (s.pc.toNat + 1) % 32768

/-- R192, U2, U3: with `ADDR_POLICY = mask` and `PC_OVERFLOW = wrap` every step has a next state, whatever the other parameters. -/
def Obligations.MaskAndWrapMakeEveryStepComplete : Prop :=
  ∀ c : Config, c.addrPolicy = .mask → c.pcOverflow = .wrap → ∀ s : State, ∃ t, stepWith c s = .next t

/-- R33, R192, U2: with `ADDR_POLICY = fault` a step has no outcome when its `ra` has bit 15 set (the refresh), when it stores and the
`ra` that `MEM_WRITE_ADDR` chooses has bit 15 set, and when its jump is taken and the `ra` that `JUMP_TARGET` chooses has bit 15
set; the last two for every comp code, and also where the old `ra` has bit 15 clear. The model's name for the stop is
`addressBit15` (log 21). -/
def Obligations.FaultPolicyStopsOnAddressBit15 : Prop :=
  ∀ (c : Config) (s : State), c.addrPolicy = .fault →
    (32768 ≤ s.ra.toNat → stepWith c s = .fault .addressBit15) ∧
    ∀ (d : Dest) (j : Jump) (r : Word), StepComputes c s d j r →
      (d.mem = true → 32768 ≤ (chosenRa c.memWriteAddr d r s).toNat → stepWith c s = .fault .addressBit15) ∧
      (fires j r = true → 32768 ≤ (chosenRa c.jumpTarget d r s).toNat → stepWith c s = .fault .addressBit15)

/-- R192, R224, U3: with `PC_OVERFLOW = fault` a step at `pc = 32767` that does not jump has no outcome: an address instruction, and
a compute instruction of any comp code whose jump is not taken. The model's name for the stop is `pcOverflow`, unless an earlier use
of `ra` as an address has stopped the step under `ADDR_POLICY = fault` (log 21). -/
def Obligations.FaultPolicyStopsAtTheLastAddress : Prop :=
  ∀ (c : Config) (s : State), c.pcOverflow = .fault → s.pc.toNat = 32767 →
    ((s.imem.read (addr15 s.pc)).toNat < 32768 →
      (∀ t : State, stepWith c s ≠ .next t) ∧
      (Presentable c s.ra → stepWith c s = .fault .pcOverflow)) ∧
    ∀ (d : Dest) (j : Jump) (r : Word), StepComputes c s d j r → fires j r = false →
      (∀ t : State, stepWith c s ≠ .next t) ∧
      (Presentable c s.ra → (d.mem = true → Presentable c (chosenRa c.memWriteAddr d r s)) →
        stepWith c s = .fault .pcOverflow)

/-! ### Memory and the display -/

/-- R34: a data write stores at every address and touches no other word, no register and no instruction word; in [0x4000, 0x6000)
it also appends the 16 events. The host's `write_data` is that write and always succeeds. So is the data write of every compute
instruction with memory as a destination, the illegal codes among them, under every parameter setting; it always succeeds too,
but for the stops that the two `fault` parameters ask for. -/
def Obligations.DataWriteStoresEverywhere : Prop :=
  (∀ (a : Addr) (v : Word) (s : State),
    (∀ b : Addr, (memWrite a v s).dmem.read b = if b = a then v else s.dmem.read b) ∧
    (memWrite a v s).events = s.events ++
      (if 16384 ≤ a.toNat ∧ a.toNat < 24576 then sixteenEvents a.toNat v else []) ∧
    (memWrite a v s).pc = s.pc ∧ (memWrite a v s).ra = s.ra ∧ (memWrite a v s).rd = s.rd ∧
    (memWrite a v s).rm = s.rm ∧ (memWrite a v s).imem = s.imem ∧
    writeData a.toNat v s = .ok (memWrite a v s)) ∧
  ∀ (c : Config) (d : Dest) (j : Jump) (s : State) (i : Instr) (r : Word), ComputeResult c d j s i r → d.mem = true →
    (∀ t : State, execWith c i s = .next t →
      t.dmem = (memWrite (storeTarget c d r s) r s).dmem ∧ t.events = (memWrite (storeTarget c d r s) r s).events) ∧
    (c.addrPolicy = .mask → c.pcOverflow = .wrap → ∃ t : State, execWith c i s = .next t)

/-- R40: the events of a display write, one by one. -/
def Obligations.DisplayExpandEmitsThePixelsOfTheWord : Prop :=
  ∀ (a : Addr) (v : Word), 16384 ≤ a.toNat → a.toNat < 24576 →
    (displayExpand a v).length = 16 ∧
    ∀ i, i < 16 → (displayExpand a v)[i]? =
      some { x := (a.toNat - 16384) % 32 * 16 + i, y := (a.toNat - 16384) / 32, on := v.getLsbD (15 - i) }

/-- R43: every write into the display range emits exactly 16 events, whatever the value and whatever the word held, a zero bit as
`on = false`, and again when the value is written again; a write outside emits none. -/
def Obligations.EveryDisplayWriteEmitsSixteenEvents : Prop :=
  ∀ (a : Addr) (v : Word) (s : State),
    (16384 ≤ a.toNat → a.toNat < 24576 → ∃ new : List PixelEvent,
      (memWrite a v s).events = s.events ++ new ∧ new.length = 16 ∧
      (∀ i, i < 16 → new[i]?.map PixelEvent.on = some (v.getLsbD (15 - i))) ∧
      (memWrite a v (memWrite a v s)).events = s.events ++ new ++ new) ∧
    ((a.toNat < 16384 ∨ 24576 ≤ a.toNat) → (memWrite a v s).events = s.events)

/-- R41: every pixel of the 512x256 bitmap belongs to exactly one bit position of exactly one display word, and every event of
a display word lies in the bitmap. -/
def Obligations.EveryPixelBelongsToOneDisplayBit : Prop :=
  (∀ (a : Addr) (v : Word) (i : Nat), inDisplay a = true → i < 16 → (pixelEvent a v i).inBitmap) ∧
  ∀ x y : Nat, x < 512 → y < 256 → ∃ (a : Addr) (i : Nat),
    (inDisplay a = true ∧ i < 16 ∧ ∀ v, (pixelEvent a v i).x = x ∧ (pixelEvent a v i).y = y) ∧
    a.toNat = 16384 + 32 * y + x / 16 ∧
    ∀ (b : Addr) (k : Nat) (v : Word), inDisplay b = true → k < 16 →
      (pixelEvent b v k).x = x → (pixelEvent b v k).y = y → b = a ∧ k = i

/-- R48: repeating a data write changes no word; outside the display range it changes nothing at all, and inside it appends the
16 events of the write once more and changes nothing else. -/
def Obligations.RepeatedDataWrites : Prop :=
  ∀ (a : Addr) (v : Word) (s : State),
    (memWrite a v (memWrite a v s)).dmem = (memWrite a v s).dmem ∧
    (inDisplay a = false → memWrite a v (memWrite a v s) = memWrite a v s) ∧
    (inDisplay a = true →
      (memWrite a v (memWrite a v s)).events = (memWrite a v s).events ++ displayExpand a v ∧
      (displayExpand a v).length = 16 ∧
      memWrite a v (memWrite a v s) = { memWrite a v s with events := (memWrite a v (memWrite a v s)).events })

/-- Log 1: the canonical form makes memories that read alike equal data. -/
def Obligations.CanonicalMemoriesThatReadAlikeAreEqual : Prop :=
  ∀ m₁ m₂ : Memory, m₁.wf = true → m₂.wf = true → (∀ a : Addr, m₁.read a = m₂.read a) → m₁ = m₂

/-- R47: under every parameter setting a host session that never calls `reset` keeps the sink's picture in agreement with
data memory. -/
def Obligations.PictureFollowsDataMemoryUntilReset : Prop :=
  ∀ (c : Config) (ops : List HostOp) (s t : State), HostOp.reset ∉ ops → PictureAgrees s →
    session c ops s = some t → PictureAgrees t

/-- R47, R23: the picture agrees with data memory at creation. -/
def Obligations.PictureAgreesAtCreation : Prop :=
  PictureAgrees State.reset

/-- R45, R47, decision D9 (log 10): `reset` keeps the event stream as it is, so it breaks the agreement, and a second `reset`
changes nothing at all. -/
def Obligations.ResetLeavesTheIssuedPictureBehind : Prop :=
  (∀ s : State, (resetMachine s).events = s.events ∧ resetMachine (resetMachine s) = resetMachine s) ∧
  PictureAgrees (memWrite 0x4000 0xFFFF State.reset) ∧
  ¬ PictureAgrees (resetMachine (memWrite 0x4000 0xFFFF State.reset))

/-! ### Invariants of the machine -/

/-- R25, R11: every step keeps `pc` below 32768, both memories canonical and every event inside the bitmap, at the default
parameters and under any others. -/
def Obligations.EveryStepKeepsTheInvariant : Prop :=
  (∀ s t : State, s.Inv → step s = .next t → t.Inv) ∧
  ∀ (c : Config) (s t : State), s.Inv → stepWith c s = .next t → t.Inv

/-- R23, R25: the state after reset meets the invariant. -/
def Obligations.ResetStateMeetsTheInvariant : Prop :=
  State.reset.Inv

/-- R25, R182: every call a host can make between steps, under every parameter setting, keeps the invariant, from every state that
meets it. -/
def Obligations.EveryHostCallKeepsTheInvariant : Prop :=
  ∀ (c : Config) (op : HostOp) (s t : State), s.Inv → stateAfter s (hostCall c op s) = some t → t.Inv

/-- R25: every state a host can bring the machine to by any session of calls meets the invariant. -/
def Obligations.EveryReachableStateMeetsTheInvariant : Prop :=
  ∀ (c : Config) (s : State), Reachable c s → s.Inv

/-- R17: no run of any length changes instruction memory, and of the host's calls only a load does. -/
def Obligations.OnlyLoadsWriteInstructionMemory : Prop :=
  (∀ (c : Config) (n : Nat) (s t : State), runWith c n s = .next t → t.imem = s.imem) ∧
  ∀ (c : Config) (op : HostOp) (s t : State),
    (∀ words, op ≠ .loadProgram words) → (∀ lines, op ≠ .loadText lines) →
    stateAfter s (hostCall c op s) = some t → t.imem = s.imem

/-- R12, R13, R15, R18: what a step can change: `ra` only by an address word or a compute word with bit 5, `rd` only by a compute word with
bit 4, a data word only by a compute word with bit 3, and then only the one at the low 15 bits of the new `ra` (decisions D1 and D6, logs
2 and 7). -/
def Obligations.StepsChangeOnlyWhatTheAccessTableLists : Prop :=
  ∀ (s t : State) (w : Word), s.imem.read (addr15 s.pc) = w → step s = .next t →
    (t.ra ≠ s.ra → w.toNat < 32768 ∨ w.toNat / 32 % 2 = 1) ∧
    (t.rd ≠ s.rd → 32768 ≤ w.toNat ∧ w.toNat / 16 % 2 = 1) ∧
    (∀ a : Addr, t.dmem.read a ≠ s.dmem.read a → 32768 ≤ w.toNat ∧ w.toNat / 8 % 2 = 1 ∧ a = addr15 t.ra) ∧
    (t.events ≠ s.events → 32768 ≤ w.toNat ∧ w.toNat / 8 % 2 = 1 ∧ inDisplay (addr15 t.ra) = true)

/-- R19, R43: the event stream only grows, by a multiple of 16, over any host session. -/
def Obligations.EventStreamOnlyGrowsBySixteens : Prop :=
  ∀ (c : Config) (ops : List HostOp) (s t : State), session c ops s = some t →
    ∃ new : List PixelEvent, t.events = s.events ++ new ∧ new.length % 16 = 0

/-- R15: the operations that do not name a register do not depend on it. -/
def Obligations.OperationsReadOnlyTheirNamedRegisters : Prop :=
  (∀ (o : Operands) (v : Word) (op : AluOp),
    op ∉ [.passRm, .notRm, .negRm, .incRm, .decRm, .rdAddRm, .rdSubRm, .rmSubRd, .rdAndRm, .rdOrRm] →
      alu op { o with rm := v } = alu op o) ∧
  (∀ (o : Operands) (v : Word) (op : AluOp),
    op ∉ [.passRa, .notRa, .negRa, .incRa, .decRa, .rdAddRa, .rdSubRa, .raSubRd, .rdAndRa, .rdOrRa] →
      alu op { o with ra := v } = alu op o) ∧
  ∀ (o : Operands) (v : Word) (op : AluOp),
    op ∉ [.passRd, .notRd, .negRd, .incRd, .decRd, .rdAddRa, .rdSubRa, .raSubRd, .rdAndRa, .rdOrRa,
      .rdAddRm, .rdSubRm, .rmSubRd, .rdAndRm, .rdOrRm] →
      alu op { o with rd := v } = alu op o

/-- R181 (decision D15, log 15): a terminal state steps to a terminal state of the same loop, with `rd`, data memory and the events
unchanged, `ra` at the loop's address and `pc` alternating. -/
def Obligations.TerminalStatesStayInTheirLoop : Prop :=
  ∀ (loop : Nat) (s : State), Terminal loop s → ∃ t, step s = .next t ∧ Terminal loop t ∧
    t.rd = s.rd ∧ (∀ a : Addr, t.dmem.read a = s.dmem.read a) ∧ t.events = s.events ∧ t.ra.toNat = loop ∧
    (s.pc.toNat = loop → t.pc.toNat = loop + 1) ∧ (s.pc.toNat = loop + 1 → t.pc.toNat = loop)

/-! ### The host's operations -/

/-- R176: `run(0)` does nothing, `run(n + 1)` is a step and then `run(n)`, and `run(n + m)` is `run(n)` and then `run(m)`. -/
def Obligations.RunsCompose : Prop :=
  ∀ (c : Config) (n m : Nat) (s : State),
    runWith c 0 s = .next s ∧
    runWith c (n + 1) s = thenRun c n (stepWith c s) ∧
    runWith c (n + m) s = thenRun c m (runWith c n s)

/-- R5, R182 (decision D12, log 13): with no scheduled host writes a scheduled run is the plain run. -/
def Obligations.EmptyScheduleIsAPlainRun : Prop :=
  ∀ (c : Config) (k n : Nat) (s : State), c.hostWrites = [] → runScheduled c k n s = runWith c n s

/-- R5, R179, R182 (decision D12, log 13): a run with scheduled host writes is the host session that calls `write_data` for each. That
a write comes before the step it names, and the order of those before one step, are the model's choices (logs 28 and 27). -/
def Obligations.ScheduledRunIsAHostSession : Prop :=
  ∀ (c : Config) (k n : Nat) (s t : State), runScheduled c k n s = .next t →
    session c (scheduledCalls c k n) s = some t

/-- R213, R218: `reset` zeroes all data words and never changes instruction memory, and a second `reset` leaves the same zeroed
registers and data memory and the same instruction memory. -/
def Obligations.ResetZeroesDataAndKeepsTheProgram : Prop :=
  ∀ s : State,
    (∀ a : Addr, (resetMachine s).dmem.read a = 0) ∧
    (resetMachine s).imem = s.imem ∧
    (resetMachine s).pc = 0 ∧ (resetMachine s).ra = 0 ∧ (resetMachine s).rd = 0 ∧ (resetMachine s).rm = 0 ∧
    (resetMachine (resetMachine s)).pc = (resetMachine s).pc ∧ (resetMachine (resetMachine s)).ra = (resetMachine s).ra ∧
    (resetMachine (resetMachine s)).rd = (resetMachine s).rd ∧ (resetMachine (resetMachine s)).rm = (resetMachine s).rm ∧
    (resetMachine (resetMachine s)).dmem = (resetMachine s).dmem ∧
    (resetMachine (resetMachine s)).imem = (resetMachine s).imem

/-- R177 (decision D11, log 12): `set_program_counter` writes `pc` and nothing else, storing its argument modulo 32768; with
`PC_OVERFLOW = fault` an argument of 32768 or more is refused, and the state after the call is the state before it. -/
def Obligations.SetProgramCounterWritesPcAlone : Prop :=
  ∀ (c : Config) (s : State) (v : Word),
    (c.pcOverflow = .wrap ∨ v.toNat < 32768 → ∃ t, setProgramCounter c v s = .ok t ∧
      t.pc.toNat = v.toNat % 32768 ∧ t = { s with pc := t.pc }) ∧
    (c.pcOverflow = .fault → 32768 ≤ v.toNat →
      hostCall c (.setProgramCounter v) s = .rejected .pcOutOfRange ∧
      stateAfter s (hostCall c (.setProgramCounter v) s) = some s)

/-- R214 (decision D10, log 11): a program that fits replaces the whole image, its tail zero, and touches nothing else. -/
def Obligations.LoadProgramReplacesTheWholeImage : Prop :=
  ∀ (words : List Word) (s : State), words.length ≤ 32768 → ∃ t, loadProgram words s = .ok t ∧
    (∀ a : Addr, t.imem.read a = (words[a.toNat]?).getD 0) ∧ t.imem.wf = true ∧ t = { s with imem := t.imem }

/-- R215: a program of more than 32768 words, or a program text with a line that is not 16 binary characters, is a load error, and
the state after the call is the state before it. -/
def Obligations.LoadErrorsChangeNothing : Prop :=
  ∀ (c : Config) (s : State),
    (∀ words : List Word, 32768 < words.length →
      hostCall c (.loadProgram words) s = .rejected .programTooLong ∧
      stateAfter s (hostCall c (.loadProgram words) s) = some s) ∧
    ∀ lines : List (List Char), (∃ line ∈ lines, ¬ WellFormedLine line) →
      hostCall c (.loadText lines) s = .rejected .malformedLine ∧
      stateAfter s (hostCall c (.loadText lines) s) = some s

/-- R76: each word written as a line, most significant bit first, loads as that word, line order being address order. -/
def Obligations.ProgramTextLoadsItsWords : Prop :=
  ∀ (words : List Word) (s : State), loadText (words.map renderWord) s = loadProgram words s

/-- R217: `reset` then a load gives the same state as the load then `reset`. -/
def Obligations.LoadAndResetCommute : Prop :=
  ∀ (words : List Word) (s t : State), loadProgram words s = .ok t →
    loadProgram words (resetMachine s) = .ok (resetMachine t)

/-- R50: the step right after a host write ends with the host's value in `rm` when its `ra` addresses the word written (by its low
15 bits, decision D1, log 2), and its refresh is unaffected when its `ra` addresses any other word. It says nothing of later
steps, which a store of the program may come before. -/
def Obligations.HostWriteIsSeenByTheNextStep : Prop :=
  ∀ (a : Nat) (v : Word) (s t u : State), writeData a v s = .ok t → step t = .next u →
    u.rm = if s.ra.toNat % 32768 = a then v else s.dmem.read (addr15 s.ra)

/-- R50: a data word written by one step is what the next step's refresh reads there. The value and the address are those of the
default parameters (decisions D1, D3 to D6 and D8, logs 2, 4 to 7 and 9). -/
def Obligations.DataWriteIsSeenByTheNextStep : Prop :=
  ∀ s t u : State, 32768 ≤ (s.imem.read (addr15 s.pc)).toNat → (s.imem.read (addr15 s.pc)).toNat / 8 % 2 = 1 →
    step s = .next t → step t = .next u →
    u.rm = tableResult ((s.imem.read (addr15 s.pc)).toNat / 64 % 128) s.ra s.rd (s.dmem.read (addr15 s.ra))
end

