-- ==== Sys2Proof/Laws/Decode.lean ====
section
/-! SUPPORT. The encoding tables: each code gives back what it stands for, the fields of a packed compute word are the
fields it was packed from, and the comp code look-up inverts an injective table. -/

namespace Sys2Proof

@[simp] theorem Dest.ofCode_code (d : Dest) : Dest.ofCode d.code = d := by
  obtain ⟨a, b, c⟩ := d
  cases a <;> cases b <;> cases c <;> rfl

@[simp] theorem Dest.code_ofCode (code : BitVec 3) : (Dest.ofCode code).code = code := by
  revert code; decide

@[simp] theorem Jump.ofCode_code (j : Jump) : Jump.ofCode j.code = j := by
  cases j <;> rfl

@[simp] theorem Jump.code_ofCode (code : BitVec 3) : (Jump.ofCode code).code = code := by
  revert code; decide

theorem AluOp.mem_all (op : AluOp) : op ∈ AluOp.all := by
  cases op <;> decide

/-! ### The fields of a packed word -/

theorem isCompute_packCompute (comp : BitVec 7) (dest : Dest) (jump : Jump) :
    isCompute (packCompute comp dest jump) = true := by
  simp [isCompute, packCompute]

theorem compField_packCompute (comp : BitVec 7) (dest : Dest) (jump : Jump) :
    compField (packCompute comp dest jump) = comp := by
  generalize hd : dest.code = d
  generalize hj : jump.code = j
  apply BitVec.eq_of_getLsbD_eq
  intro i hi
  interval_cases i <;> simp [compField, packCompute, hd, hj]

theorem destField_packCompute (comp : BitVec 7) (dest : Dest) (jump : Jump) :
    destField (packCompute comp dest jump) = dest.code := by
  generalize hd : dest.code = d
  generalize hj : jump.code = j
  apply BitVec.eq_of_getLsbD_eq
  intro i hi
  interval_cases i <;> simp [destField, packCompute, hd, hj]

theorem jumpField_packCompute (comp : BitVec 7) (dest : Dest) (jump : Jump) :
    jumpField (packCompute comp dest jump) = jump.code := by
  generalize hd : dest.code = d
  generalize hj : jump.code = j
  apply BitVec.eq_of_getLsbD_eq
  intro i hi
  interval_cases i <;> simp [jumpField, packCompute, hd, hj]

theorem isCompute_literal (value : Addr) : isCompute (value.setWidth 16) = false := by
  simp [isCompute]

theorem literalField_literal (value : Addr) : literalField (value.setWidth 16) = value := by
  apply BitVec.eq_of_getLsbD_eq
  intro i hi
  simp [literalField, hi]; omega

/-- Packing the fields of a compute word gives that word with bits 14:13 set. -/
theorem packCompute_fields (w : Word) (h : isCompute w = true) :
    packCompute (compField w) (Dest.ofCode (destField w)) (Jump.ofCode (jumpField w)) = w ||| 0x6000 := by
  simp only [isCompute] at h
  apply BitVec.eq_of_getLsbD_eq
  intro i hi
  interval_cases i <;> simp [packCompute, compField, destField, jumpField, h]

/-- An address word is its literal. -/
theorem literalField_setWidth (w : Word) (h : isCompute w = false) : (literalField w).setWidth 16 = w := by
  simp only [isCompute] at h
  apply BitVec.eq_of_getLsbD_eq
  intro i hi
  rcases Nat.lt_or_eq_of_le (Nat.le_of_lt_succ hi) with hlt | rfl
  · simp [literalField, hi, hlt]
  · simpa [literalField] using h.symm

/-! ### The comp code look-up -/

/-- An operation that exists is found under its own code. -/
theorem Config.opOfCode_compCode {c : Config} (hc : c.CodesInjective) {op : AluOp} (hp : c.present op = true) :
    c.opOfCode (c.compCode op) = some op := by
  unfold Config.opOfCode
  cases h : AluOp.all.find? fun o => c.present o && c.compCode o == c.compCode op with
  | none =>
    have := List.find?_eq_none.mp h op (AluOp.mem_all op)
    simp [hp] at this
  | some o =>
    have := List.find?_some h
    simp at this
    rw [hc _ _ this.2]

/-- A found operation exists and has the code it was found under. -/
theorem Config.compCode_of_opOfCode {c : Config} {comp : BitVec 7} {op : AluOp} (h : c.opOfCode comp = some op) :
    c.present op = true ∧ c.compCode op = comp := by
  have := List.find?_some h
  simpa using this

theorem Config.default_codesInjective : Config.default.CodesInjective := by
  intro o₁ o₂ h
  have inj : ∀ a ∈ AluOp.all, ∀ b ∈ AluOp.all, compCodeTable a = compCodeTable b → a = b := by decide
  exact inj _ (AluOp.mem_all _) _ (AluOp.mem_all _) h

@[simp] theorem Instr.shape_ofOp (op : AluOp) (dest : Dest) (jump : Jump) :
    (Instr.ofOp op dest jump).shape = .compute op dest jump := by
  cases op <;> rfl

@[simp] theorem Instr.shape_address (value : Addr) : (Instr.address value).shape = .address value := rfl

@[simp] theorem Instr.shape_illegalCompCode (comp : BitVec 7) (dest : Dest) (jump : Jump) :
    (Instr.illegalCompCode comp dest jump).shape = .illegal comp dest jump := rfl

/-- An instruction is determined by its shape. -/
theorem Instr.shape_injective {i j : Instr} (h : i.shape = j.shape) : i = j := by
  have back : ∀ k : Instr, (match k.shape with
      | .address value => Instr.address value
      | .compute op dest jump => Instr.ofOp op dest jump
      | .illegal comp dest jump => Instr.illegalCompCode comp dest jump) = k := by
    intro k; cases k <;> rfl
  rw [← back i, ← back j, h]

theorem Instr.wellFormedIn_ofOp (c : Config) (op : AluOp) (dest : Dest) (jump : Jump) :
    (Instr.ofOp op dest jump).wellFormedIn c = c.present op := by
  cases op <;> rfl

end Sys2Proof
end

