-- ==== Sys2Proof/Laws/State.lean ====
section
/-! SUPPORT. One lemma for each field and each named update of State. -/

namespace Sys2Proof.Machine

@[simp] theorem State.setPc_pc (s : State) (v : Word) : (s.setPc v).pc = v := rfl
@[simp] theorem State.setPc_ra (s : State) (v : Word) : (s.setPc v).ra = s.ra := rfl
@[simp] theorem State.setPc_rd (s : State) (v : Word) : (s.setPc v).rd = s.rd := rfl
@[simp] theorem State.setPc_rm (s : State) (v : Word) : (s.setPc v).rm = s.rm := rfl
@[simp] theorem State.setPc_imem (s : State) (v : Word) : (s.setPc v).imem = s.imem := rfl
@[simp] theorem State.setPc_dmem (s : State) (v : Word) : (s.setPc v).dmem = s.dmem := rfl
@[simp] theorem State.setPc_events (s : State) (v : Word) : (s.setPc v).events = s.events := rfl

@[simp] theorem State.setRa_pc (s : State) (v : Word) : (s.setRa v).pc = s.pc := rfl
@[simp] theorem State.setRa_ra (s : State) (v : Word) : (s.setRa v).ra = v := rfl
@[simp] theorem State.setRa_rd (s : State) (v : Word) : (s.setRa v).rd = s.rd := rfl
@[simp] theorem State.setRa_rm (s : State) (v : Word) : (s.setRa v).rm = s.rm := rfl
@[simp] theorem State.setRa_imem (s : State) (v : Word) : (s.setRa v).imem = s.imem := rfl
@[simp] theorem State.setRa_dmem (s : State) (v : Word) : (s.setRa v).dmem = s.dmem := rfl
@[simp] theorem State.setRa_events (s : State) (v : Word) : (s.setRa v).events = s.events := rfl

@[simp] theorem State.setRd_pc (s : State) (v : Word) : (s.setRd v).pc = s.pc := rfl
@[simp] theorem State.setRd_ra (s : State) (v : Word) : (s.setRd v).ra = s.ra := rfl
@[simp] theorem State.setRd_rd (s : State) (v : Word) : (s.setRd v).rd = v := rfl
@[simp] theorem State.setRd_rm (s : State) (v : Word) : (s.setRd v).rm = s.rm := rfl
@[simp] theorem State.setRd_imem (s : State) (v : Word) : (s.setRd v).imem = s.imem := rfl
@[simp] theorem State.setRd_dmem (s : State) (v : Word) : (s.setRd v).dmem = s.dmem := rfl
@[simp] theorem State.setRd_events (s : State) (v : Word) : (s.setRd v).events = s.events := rfl

@[simp] theorem State.setRm_pc (s : State) (v : Word) : (s.setRm v).pc = s.pc := rfl
@[simp] theorem State.setRm_ra (s : State) (v : Word) : (s.setRm v).ra = s.ra := rfl
@[simp] theorem State.setRm_rd (s : State) (v : Word) : (s.setRm v).rd = s.rd := rfl
@[simp] theorem State.setRm_rm (s : State) (v : Word) : (s.setRm v).rm = v := rfl
@[simp] theorem State.setRm_imem (s : State) (v : Word) : (s.setRm v).imem = s.imem := rfl
@[simp] theorem State.setRm_dmem (s : State) (v : Word) : (s.setRm v).dmem = s.dmem := rfl
@[simp] theorem State.setRm_events (s : State) (v : Word) : (s.setRm v).events = s.events := rfl

@[simp] theorem memWrite_pc (a : Addr) (v : Word) (s : State) : (memWrite a v s).pc = s.pc := rfl
@[simp] theorem memWrite_ra (a : Addr) (v : Word) (s : State) : (memWrite a v s).ra = s.ra := rfl
@[simp] theorem memWrite_rd (a : Addr) (v : Word) (s : State) : (memWrite a v s).rd = s.rd := rfl
@[simp] theorem memWrite_rm (a : Addr) (v : Word) (s : State) : (memWrite a v s).rm = s.rm := rfl
@[simp] theorem memWrite_imem (a : Addr) (v : Word) (s : State) : (memWrite a v s).imem = s.imem := rfl
@[simp] theorem memWrite_dmem (a : Addr) (v : Word) (s : State) : (memWrite a v s).dmem = s.dmem.write a v := rfl
@[simp] theorem memWrite_events (a : Addr) (v : Word) (s : State) :
    (memWrite a v s).events = if inDisplay a then s.events ++ displayExpand a v else s.events := rfl

@[simp] theorem State.reset_pc : State.reset.pc = 0 := rfl
@[simp] theorem State.reset_ra : State.reset.ra = 0 := rfl
@[simp] theorem State.reset_rd : State.reset.rd = 0 := rfl
@[simp] theorem State.reset_rm : State.reset.rm = 0 := rfl
@[simp] theorem State.reset_imem : State.reset.imem = [] := rfl
@[simp] theorem State.reset_dmem : State.reset.dmem = [] := rfl
@[simp] theorem State.reset_events : State.reset.events = [] := rfl

end Sys2Proof.Machine
end

