-- ==== Sys2Proof/Laws/Memory.lean ====
section
/-! SUPPORT. The laws of a memory: what a read after a write gives, and that every operation keeps the canonical form. -/

namespace Sys2Proof.Machine

@[simp] theorem Memory.read_nil (a : Addr) : Memory.read [] a = 0 := rfl

theorem Memory.read_cons (k : Nat) (v : Word) (rest : Memory) (a : Addr) :
    Memory.read ((k, v) :: rest) a = if k = a.toNat then v else Memory.read rest a := rfl

/-- Dropping an address's cells makes it read as unlisted, and leaves the others. -/
theorem Memory.read_filter (m : Memory) (a b : Addr) :
    Memory.read (m.filter fun cell => cell.1 != a.toNat) b = if b = a then 0 else Memory.read m b := by
  induction m with
  | nil => simp
  | cons cell rest ih =>
    obtain ⟨k, v⟩ := cell
    by_cases hk : k = a.toNat
    · subst hk
      by_cases hb : b = a
      · subst hb; simpa using ih
      · have : a.toNat ≠ b.toNat := fun h => hb (BitVec.eq_of_toNat_eq h.symm)
        simp [hb, ih, Memory.read_cons, this]
    · by_cases hb : b = a
      · subst hb; simp [hk, ih, Memory.read_cons]
      · simp [hk, hb, ih, Memory.read_cons]

/-- Inserting a cell of an address that has none changes that address alone. -/
theorem Memory.read_insert (m : Memory) (a b : Addr) (v : Word) (h : ∀ cell ∈ m, cell.1 ≠ a.toNat) :
    Memory.read (Memory.insert a.toNat v m) b = if b = a then v else Memory.read m b := by
  induction m with
  | nil =>
    by_cases hb : b = a
    · simp [Memory.insert, Memory.read_cons, hb]
    · have : a.toNat ≠ b.toNat := fun h => hb (BitVec.eq_of_toNat_eq h.symm)
      simp [Memory.insert, Memory.read_cons, hb, this]
  | cons cell rest ih =>
    obtain ⟨k, w⟩ := cell
    have hk : k ≠ a.toNat := h (k, w) (by simp)
    have ih := ih fun cell hc => h cell (by simp [hc])
    unfold Memory.insert
    by_cases hb : b = a
    · subst hb
      split
      · simp [Memory.read_cons]
      · simp [Memory.read_cons, hk, ih]
    · have hab : a.toNat ≠ b.toNat := fun h => hb (BitVec.eq_of_toNat_eq h.symm)
      split
      · simp [Memory.read_cons, hab]
      · simp [Memory.read_cons, ih, hb]

/-- The whole law of a write, for every list, canonical or not. -/
theorem Memory.read_write (m : Memory) (a b : Addr) (v : Word) :
    (m.write a v).read b = if b = a then v else m.read b := by
  unfold Memory.write
  by_cases hv : v = Memory.unlisted
  · simp only [hv, if_true, Memory.read_filter]; rfl
  · simp only [hv, if_false]
    rw [Memory.read_insert _ _ _ _ (by simp), Memory.read_filter]
    split <;> simp_all

@[simp] theorem Memory.read_write_same (m : Memory) (a : Addr) (v : Word) : (m.write a v).read a = v := by
  rw [Memory.read_write, if_pos rfl]

theorem Memory.read_write_other (m : Memory) {a b : Addr} (v : Word) (h : b ≠ a) :
    (m.write a v).read b = m.read b := by
  rw [Memory.read_write, if_neg h]

/-! ### The canonical form -/

theorem Memory.canonicalFrom_cons (low k : Nat) (v : Word) (rest : Memory) :
    Memory.canonicalFrom low ((k, v) :: rest) = true ↔
      low ≤ k ∧ k < 32768 ∧ v ≠ 0 ∧ Memory.canonicalFrom (k + 1) rest = true := by
  simp only [Memory.canonicalFrom, Bool.and_eq_true, decide_eq_true_eq, bne_iff_ne, and_assoc]
  exact Iff.rfl

theorem Memory.canonicalFrom_mono {low low' : Nat} (h : low' ≤ low) :
    ∀ m : Memory, Memory.canonicalFrom low m = true → Memory.canonicalFrom low' m = true
  | [], _ => rfl
  | (k, v) :: rest, hm => by
    rw [Memory.canonicalFrom_cons] at hm ⊢
    exact ⟨h.trans hm.1, hm.2⟩

theorem Memory.canonicalFrom_filter (p : Nat × Word → Bool) :
    ∀ (low : Nat) (m : Memory), Memory.canonicalFrom low m = true → Memory.canonicalFrom low (m.filter p) = true
  | _, [], _ => rfl
  | low, (k, v) :: rest, hm => by
    rw [Memory.canonicalFrom_cons] at hm
    obtain ⟨h1, h2, h3, h4⟩ := hm
    have ih := Memory.canonicalFrom_filter p (k + 1) rest h4
    by_cases hp : p (k, v) = true
    · rw [List.filter_cons_of_pos hp, Memory.canonicalFrom_cons]
      exact ⟨h1, h2, h3, ih⟩
    · rw [List.filter_cons_of_neg hp]
      exact Memory.canonicalFrom_mono (by omega) _ ih

theorem Memory.canonicalFrom_insert {a : Nat} {v : Word} (ha : a < 32768) (hv : v ≠ 0) :
    ∀ (low : Nat) (m : Memory), low ≤ a → Memory.canonicalFrom low m = true → (∀ cell ∈ m, cell.1 ≠ a) →
      Memory.canonicalFrom low (Memory.insert a v m) = true
  | low, [], hl, _, _ => by
    simp only [Memory.insert]
    rw [Memory.canonicalFrom_cons]
    exact ⟨hl, ha, hv, rfl⟩
  | low, (k, w) :: rest, hl, hm, hne => by
    rw [Memory.canonicalFrom_cons] at hm
    obtain ⟨h1, h2, h3, h4⟩ := hm
    have hk : k ≠ a := hne (k, w) (by simp)
    unfold Memory.insert
    by_cases hlt : a < k
    · rw [if_pos hlt, Memory.canonicalFrom_cons, Memory.canonicalFrom_cons]
      exact ⟨hl, ha, hv, hlt, h2, h3, h4⟩
    · rw [if_neg hlt, Memory.canonicalFrom_cons]
      exact ⟨h1, h2, h3, Memory.canonicalFrom_insert ha hv (k + 1) rest (by omega) h4
        fun cell hc => hne cell (by simp [hc])⟩

/-- A write keeps the canonical form. -/
theorem Memory.wf_write {m : Memory} (h : m.wf = true) (a : Addr) (v : Word) : (m.write a v).wf = true := by
  unfold Memory.write
  have hf := Memory.canonicalFrom_filter (fun cell => cell.1 != a.toNat) 0 m h
  by_cases hv : v = Memory.unlisted
  · simp only [hv, if_true]
    exact hf
  · simp only [hv, if_false]
    exact Memory.canonicalFrom_insert a.isLt hv 0 _ (Nat.zero_le _) hf (by simp)

@[simp] theorem Memory.wf_nil : Memory.wf [] = true := rfl

theorem Memory.ofWords_cons (k : Nat) (v : Word) (rest : List Word) :
    Memory.ofWords k (v :: rest)
      = if v = Memory.unlisted then Memory.ofWords (k + 1) rest else (k, v) :: Memory.ofWords (k + 1) rest := rfl

/-- Laying out a list of words that fits gives a canonical memory. -/
theorem Memory.canonicalFrom_ofWords :
    ∀ (k : Nat) (ws : List Word), k + ws.length ≤ 32768 → Memory.canonicalFrom k (Memory.ofWords k ws) = true
  | _, [], _ => rfl
  | k, v :: rest, h => by
    have ih := Memory.canonicalFrom_ofWords (k + 1) rest (by simp at h; omega)
    rw [Memory.ofWords_cons]
    by_cases hv : v = Memory.unlisted
    · rw [if_pos hv]
      exact Memory.canonicalFrom_mono (by omega) _ ih
    · rw [if_neg hv, Memory.canonicalFrom_cons]
      exact ⟨le_refl k, by simp at h; omega, hv, ih⟩

theorem Memory.wf_ofWords {ws : List Word} (h : ws.length ≤ 32768) : (Memory.ofWords 0 ws).wf = true :=
  Memory.canonicalFrom_ofWords 0 ws (by omega)

/-- What a memory laid out from a list of words reads as. -/
theorem Memory.read_ofWords :
    ∀ (k : Nat) (ws : List Word) (a : Addr),
      Memory.read (Memory.ofWords k ws) a = if k ≤ a.toNat then (ws[a.toNat - k]?).getD 0 else 0
  | k, [], a => by simp [Memory.ofWords]
  | k, v :: rest, a => by
    have ih := Memory.read_ofWords (k + 1) rest a
    have key : Memory.read (Memory.ofWords k (v :: rest)) a
        = if k = a.toNat then v else Memory.read (Memory.ofWords (k + 1) rest) a := by
      rw [Memory.ofWords_cons]
      by_cases hv : v = Memory.unlisted
      · rw [if_pos hv, ih]
        by_cases hk : k = a.toNat
        · rw [if_pos hk, if_neg (by omega), hv]; rfl
        · rw [if_neg hk]
      · rw [if_neg hv, Memory.read_cons]
    rw [key, ih]
    by_cases hk : k = a.toNat
    · simp [hk]
    · by_cases hle : k ≤ a.toNat
      · have h1 : k + 1 ≤ a.toNat := by omega
        have h2 : a.toNat - k = (a.toNat - (k + 1)) + 1 := by omega
        simp [hk, hle, h1, h2]
      · have h1 : ¬ k + 1 ≤ a.toNat := by omega
        simp [hk, hle, h1]

end Sys2Proof.Machine
end

