-- ==== Sys2Proof/Laws/Ops.lean ====
section
/-! SUPPORT. One lemma for each shared operation that says once what it can do, under any parameters. -/

namespace Sys2Proof.Machine

/-- The only address a register can present is its low 15 bits. -/
theorem effectiveAddress_ok {c : Config} {v : Word} {a : Addr} (h : effectiveAddress c v = .ok a) : a = addr15 v := by
  unfold effectiveAddress at h
  split at h
  · cases h; rfl
  · split at h
    · cases h
    · cases h; rfl

theorem effectiveAddress_of_mask {c : Config} (hc : c.addrPolicy = .mask) (v : Word) :
    effectiveAddress c v = .ok (addr15 v) := by
  simp [effectiveAddress, hc]

theorem getLsbD_15_eq (v : Word) : v.getLsbD 15 = decide (32768 ≤ v.toNat) := by
  rw [Bool.eq_iff_iff, decide_eq_true_eq, ← BitVec.msb_eq_getLsbD_last v, BitVec.msb_eq_true_iff_two_mul_ge]
  omega

/-- With `ADDR_POLICY = fault` a value with bit 15 set is no address (U2). -/
theorem effectiveAddress_of_bit15 {c : Config} (hc : c.addrPolicy = .fault) {v : Word} (h : 32768 ≤ v.toNat) :
    effectiveAddress c v = .error .addressBit15 := by
  simp [effectiveAddress, hc, getLsbD_15_eq, h]

/-- The only reason for which a register presents no address. -/
theorem effectiveAddress_error {c : Config} {v : Word} {f : Fault} (h : effectiveAddress c v = .error f) :
    f = .addressBit15 ∧ c.addrPolicy = .fault ∧ 32768 ≤ v.toNat := by
  unfold effectiveAddress at h
  split at h
  · cases h
  next hp =>
    split at h
    next hb =>
      cases h
      rw [getLsbD_15_eq, decide_eq_true_eq] at hb
      exact ⟨rfl, hp, hb⟩
    · cases h

theorem effectiveAddress_of_presentable {c : Config} {v : Word} (h : c.addrPolicy = .mask ∨ v.toNat < 32768) :
    effectiveAddress c v = .ok (addr15 v) := by
  cases ha : effectiveAddress c v with
  | ok a => rw [effectiveAddress_ok ha]
  | error f =>
    obtain ⟨-, hp, hv⟩ := effectiveAddress_error ha
    rcases h with h | h
    · rw [hp] at h; cases h
    · omega

@[simp] theorem effectiveAddress_default (v : Word) : effectiveAddress Config.default v = .ok (addr15 v) := rfl

theorem zext16_toNat (a : Addr) : (zext16 a).toNat = a.toNat := by
  simp [zext16]; omega

theorem addr15_toNat (v : Word) : (addr15 v).toNat = v.toNat % 32768 := by
  simp [addr15]

@[simp] theorem addr15_zext16 (a : Addr) : addr15 (zext16 a) = a := by
  apply BitVec.eq_of_toNat_eq
  rw [addr15_toNat, zext16_toNat]; omega

theorem pcSuccessor_ok {c : Config} {pc v : Word} (h : pcSuccessor c pc = .ok v) : v = zext16 (addr15 (pc + 1)) := by
  unfold pcSuccessor at h
  split at h
  · cases h; rfl
  · split at h
    · cases h
    · cases h; rfl

theorem pcSuccessor_of_wrap {c : Config} (hc : c.pcOverflow = .wrap) (pc : Word) :
    pcSuccessor c pc = .ok (zext16 (addr15 (pc + 1))) := by
  simp only [pcSuccessor, hc]

/-- With `PC_OVERFLOW = fault` the last address has no successor (U3). -/
theorem pcSuccessor_of_last {c : Config} (hc : c.pcOverflow = .fault) {pc : Word} (h : 32767 ≤ pc.toNat) :
    pcSuccessor c pc = .error .pcOverflow := by
  simp [pcSuccessor, hc, h]

@[simp] theorem pcSuccessor_default (pc : Word) : pcSuccessor Config.default pc = .ok (zext16 (addr15 (pc + 1))) := rfl

/-- `pc` receives a 15-bit address and nothing else changes (R166). -/
theorem updatePc_ok {c : Config} {taken : Bool} {oldRa : Word} {s t : State} (h : updatePc c taken oldRa s = .ok t) :
    t = s.setPc (zext16 (if taken then addr15 (RaChoice.pick c.jumpTarget oldRa s.ra) else addr15 (s.pc + 1))) := by
  unfold updatePc at h
  split at h
  next ht =>
    split at h
    · cases h
    next a ha => cases h; rw [if_pos ht, effectiveAddress_ok ha]
  next ht =>
    split at h
    · cases h
    next v hv => cases h; rw [if_neg ht, pcSuccessor_ok hv]

theorem updatePc_of_mask_of_wrap {c : Config} (hm : c.addrPolicy = .mask) (hw : c.pcOverflow = .wrap) (taken : Bool)
    (oldRa : Word) (s : State) : ∃ t, updatePc c taken oldRa s = .ok t := by
  cases taken
  · simp [updatePc, pcSuccessor_of_wrap hw]
  · simp [updatePc, effectiveAddress_of_mask hm]

theorem updatePc_default (taken : Bool) (oldRa : Word) (s : State) :
    updatePc Config.default taken oldRa s
      = .ok (s.setPc (zext16 (if taken then addr15 s.ra else addr15 (s.pc + 1)))) := by
  cases taken <;> rfl

/-- The address of the data write of a compute instruction (R150): what `MEM_WRITE_ADDR` chooses of the old `ra` and the new. -/
def storeAddress (c : Config) (dest : Dest) (r : Word) (s : State) : Addr :=
  addr15 (RaChoice.pick c.memWriteAddr s.ra (if dest.ra then r else s.ra))

/-- The state after the destination writes, field by field (R149 to R151). -/
structure Written (c : Config) (dest : Dest) (r : Word) (s t : State) : Prop where
  pc : t.pc = s.pc
  ra : t.ra = if dest.ra then r else s.ra
  rd : t.rd = if dest.rd then r else s.rd
  rm : t.rm = s.rm
  imem : t.imem = s.imem
  dmem : t.dmem = if dest.mem then s.dmem.write (storeAddress c dest r s) r else s.dmem
  events : t.events = if dest.mem && inDisplay (storeAddress c dest r s)
    then s.events ++ displayExpand (storeAddress c dest r s) r else s.events

theorem writeDestinations_ok {c : Config} {dest : Dest} {r : Word} {s t : State}
    (h : writeDestinations c dest r s = .ok t) : Written c dest r s t := by
  obtain ⟨a, d, m⟩ := dest
  cases m
  · cases a <;> cases d <;> cases h <;> constructor <;> rfl
  · simp only [writeDestinations, if_true] at h
    split at h
    · cases h
    next x hx =>
      have hx := effectiveAddress_ok hx
      cases h
      subst hx
      cases a <;> cases d <;> constructor <;> simp [storeAddress]

/-- The destination writes have no outcome only where the store's address has none. -/
theorem writeDestinations_error {c : Config} {dest : Dest} {r : Word} {s : State} {f : Fault}
    (h : writeDestinations c dest r s = .error f) :
    dest.mem = true ∧ effectiveAddress c (RaChoice.pick c.memWriteAddr s.ra (if dest.ra then r else s.ra)) = .error f := by
  obtain ⟨a, d, m⟩ := dest
  cases m
  · cases h
  · simp only [writeDestinations, if_true] at h
    split at h
    next g hg =>
      cases h
      refine ⟨rfl, ?_⟩
      cases a <;> cases d <;> exact hg
    · cases h

/-- A store whose address has no outcome leaves the destination writes without one. -/
theorem writeDestinations_of_store_error {c : Config} {dest : Dest} {r : Word} {s : State} {f : Fault}
    (hm : dest.mem = true)
    (h : effectiveAddress c (RaChoice.pick c.memWriteAddr s.ra (if dest.ra then r else s.ra)) = .error f) :
    writeDestinations c dest r s = .error f := by
  obtain ⟨a, d, m⟩ := dest
  cases hm
  cases a <;> cases d <;> simp_all [writeDestinations]

theorem writeDestinations_default (dest : Dest) (r : Word) (s : State) :
    ∃ t, writeDestinations Config.default dest r s = .ok t := by
  obtain ⟨a, d, m⟩ := dest
  cases m
  · exact ⟨_, rfl⟩
  · simp [writeDestinations]

/-- What a compute instruction does when it has an outcome (R84, R89), field by field. -/
structure Computed (c : Config) (r : Word) (dest : Dest) (jump : Jump) (s t : State) : Prop where
  pc : t.pc = zext16 (if jumpCond jump r
    then addr15 (RaChoice.pick c.jumpTarget s.ra (if dest.ra then r else s.ra)) else addr15 (s.pc + 1))
  ra : t.ra = if dest.ra then r else s.ra
  rd : t.rd = if dest.rd then r else s.rd
  rm : t.rm = s.rm
  imem : t.imem = s.imem
  dmem : t.dmem = if dest.mem then s.dmem.write (storeAddress c dest r s) r else s.dmem
  events : t.events = if dest.mem && inDisplay (storeAddress c dest r s)
    then s.events ++ displayExpand (storeAddress c dest r s) r else s.events

theorem toOutcome_next {e : Except Fault State} {t : State} (h : toOutcome e = .next t) : e = .ok t := by
  cases e with
  | error f => cases h
  | ok s => cases h; rfl

theorem toOutcome_not_refused (e : Except Fault State) (q : Refusal) : toOutcome e ≠ .refused q := by
  cases e <;> intro h <;> cases h

theorem compute_next {c : Config} {r : Word} {dest : Dest} {jump : Jump} {s t : State}
    (h : compute c r dest jump s = .next t) : Computed c r dest jump s t := by
  unfold compute at h
  split at h
  · cases h
  next s₁ hs =>
    have w := writeDestinations_ok hs
    have u := updatePc_ok (toOutcome_next h)
    subst u
    exact ⟨by rw [State.setPc_pc, w.ra, w.pc], w.ra, w.rd, w.rm, w.imem, w.dmem, w.events⟩

/-- At the default parameters a compute instruction always has an outcome (R87, R190). -/
theorem compute_default (r : Word) (dest : Dest) (jump : Jump) (s : State) :
    ∃ t, compute Config.default r dest jump s = .next t ∧ Computed Config.default r dest jump s t := by
  obtain ⟨s₁, hs⟩ := writeDestinations_default dest r s
  have h : compute Config.default r dest jump s
      = toOutcome (updatePc Config.default (jumpCond jump r) s.ra s₁) := by
    simp only [compute, hs]
  rw [updatePc_default] at h
  exact ⟨_, h, compute_next h⟩

/-- With `ADDR_POLICY = mask` and `PC_OVERFLOW = wrap` a compute instruction always has an outcome, whatever the other
parameters. -/
theorem compute_of_mask_of_wrap {c : Config} (hm : c.addrPolicy = .mask) (hw : c.pcOverflow = .wrap) (r : Word) (dest : Dest)
    (jump : Jump) (s : State) : ∃ t, compute c r dest jump s = .next t := by
  unfold compute
  split
  next f hf =>
    obtain ⟨-, hp, -⟩ := effectiveAddress_error (writeDestinations_error hf).2
    rw [hm] at hp; cases hp
  next s₁ hs =>
    obtain ⟨t, ht⟩ := updatePc_of_mask_of_wrap hm hw (jumpCond jump r) s.ra s₁
    exact ⟨t, by rw [ht]; rfl⟩

theorem compute_not_refused (c : Config) (r : Word) (dest : Dest) (jump : Jump) (s : State) (q : Refusal) :
    compute c r dest jump s ≠ .refused q := by
  unfold compute
  split
  · intro h; cases h
  · exact toOutcome_not_refused _ q

theorem loadAddress_next {c : Config} {value : Addr} {s t : State} (h : loadAddress c value s = .next t) :
    t = (s.setRa (zext16 value)).setPc (zext16 (addr15 (s.pc + 1))) :=
  updatePc_ok (toOutcome_next h)

theorem loadAddress_default (value : Addr) (s : State) :
    loadAddress Config.default value s = .next ((s.setRa (zext16 value)).setPc (zext16 (addr15 (s.pc + 1)))) := rfl

/-! ### The display write expander -/

theorem displayExpand_length (a : Addr) (v : Word) : (displayExpand a v).length = 16 := by
  simp [displayExpand, pixelsPerWord]

theorem mem_displayExpand {a : Addr} {v : Word} {e : PixelEvent} :
    e ∈ displayExpand a v ↔ ∃ i < 16, pixelEvent a v i = e := by
  simp [displayExpand, pixelsPerWord]

theorem inDisplay_iff (a : Addr) : inDisplay a = true ↔ 0x4000 ≤ a.toNat ∧ a.toNat < 0x6000 := by
  simp only [inDisplay, Bool.and_eq_true, decide_eq_true_eq]; exact Iff.rfl

/-- The data write as a read sees it. -/
theorem read_memWrite (a b : Addr) (v : Word) (s : State) :
    (memWrite a v s).dmem.read b = if b = a then v else s.dmem.read b :=
  Memory.read_write ..

end Sys2Proof.Machine
end

