-- ==== Sys2Proof/Laws/PerInstr.lean ====
section
/-! SUPPORT. Families of lemmas with one lemma per constructor of Instr. -/

namespace Sys2Proof.Laws.EncodedFields

/-- The encoded word of an instruction carries exactly its class bit and its fields (R61, R62, R72), under any parameters. -/
def Statement (i : Instr) : Prop :=
  ∀ c : Config, match i.shape with
    | .address value => isCompute (encodeWith c i) = false ∧ literalField (encodeWith c i) = value
    | .compute op dest jump =>
      isCompute (encodeWith c i) = true ∧ compField (encodeWith c i) = c.compCode op ∧
      Dest.ofCode (destField (encodeWith c i)) = dest ∧ Jump.ofCode (jumpField (encodeWith c i)) = jump
    | .illegal comp dest jump =>
      isCompute (encodeWith c i) = true ∧ compField (encodeWith c i) = comp ∧
      Dest.ofCode (destField (encodeWith c i)) = dest ∧ Jump.ofCode (jumpField (encodeWith c i)) = jump

/-- The fields of any packed word. -/
theorem packed (comp : BitVec 7) (dest : Dest) (jump : Jump) :
    isCompute (packCompute comp dest jump) = true ∧ compField (packCompute comp dest jump) = comp ∧
      Dest.ofCode (destField (packCompute comp dest jump)) = dest ∧
      Jump.ofCode (jumpField (packCompute comp dest jump)) = jump :=
  ⟨isCompute_packCompute .., compField_packCompute .., by rw [destField_packCompute, Dest.ofCode_code],
    by rw [jumpField_packCompute, Jump.ofCode_code]⟩

theorem address (value : Addr) : Statement (.address value) :=
  fun _ => ⟨isCompute_literal value, literalField_literal value⟩

theorem zero (dest : Dest) (jump : Jump) : Statement (.zero dest jump) := fun _ => packed ..
theorem one (dest : Dest) (jump : Jump) : Statement (.one dest jump) := fun _ => packed ..
theorem minusOne (dest : Dest) (jump : Jump) : Statement (.minusOne dest jump) := fun _ => packed ..
theorem passRd (dest : Dest) (jump : Jump) : Statement (.passRd dest jump) := fun _ => packed ..
theorem passRa (dest : Dest) (jump : Jump) : Statement (.passRa dest jump) := fun _ => packed ..
theorem notRd (dest : Dest) (jump : Jump) : Statement (.notRd dest jump) := fun _ => packed ..
theorem notRa (dest : Dest) (jump : Jump) : Statement (.notRa dest jump) := fun _ => packed ..
theorem negRd (dest : Dest) (jump : Jump) : Statement (.negRd dest jump) := fun _ => packed ..
theorem negRa (dest : Dest) (jump : Jump) : Statement (.negRa dest jump) := fun _ => packed ..
theorem incRd (dest : Dest) (jump : Jump) : Statement (.incRd dest jump) := fun _ => packed ..
theorem incRa (dest : Dest) (jump : Jump) : Statement (.incRa dest jump) := fun _ => packed ..
theorem decRd (dest : Dest) (jump : Jump) : Statement (.decRd dest jump) := fun _ => packed ..
theorem decRa (dest : Dest) (jump : Jump) : Statement (.decRa dest jump) := fun _ => packed ..
theorem rdAddRa (dest : Dest) (jump : Jump) : Statement (.rdAddRa dest jump) := fun _ => packed ..
theorem rdSubRa (dest : Dest) (jump : Jump) : Statement (.rdSubRa dest jump) := fun _ => packed ..
theorem raSubRd (dest : Dest) (jump : Jump) : Statement (.raSubRd dest jump) := fun _ => packed ..
theorem rdAndRa (dest : Dest) (jump : Jump) : Statement (.rdAndRa dest jump) := fun _ => packed ..
theorem rdOrRa (dest : Dest) (jump : Jump) : Statement (.rdOrRa dest jump) := fun _ => packed ..
theorem passRm (dest : Dest) (jump : Jump) : Statement (.passRm dest jump) := fun _ => packed ..
theorem notRm (dest : Dest) (jump : Jump) : Statement (.notRm dest jump) := fun _ => packed ..
theorem negRm (dest : Dest) (jump : Jump) : Statement (.negRm dest jump) := fun _ => packed ..
theorem incRm (dest : Dest) (jump : Jump) : Statement (.incRm dest jump) := fun _ => packed ..
theorem decRm (dest : Dest) (jump : Jump) : Statement (.decRm dest jump) := fun _ => packed ..
theorem rdAddRm (dest : Dest) (jump : Jump) : Statement (.rdAddRm dest jump) := fun _ => packed ..
theorem rdSubRm (dest : Dest) (jump : Jump) : Statement (.rdSubRm dest jump) := fun _ => packed ..
theorem rmSubRd (dest : Dest) (jump : Jump) : Statement (.rmSubRd dest jump) := fun _ => packed ..
theorem rdAndRm (dest : Dest) (jump : Jump) : Statement (.rdAndRm dest jump) := fun _ => packed ..
theorem rdOrRm (dest : Dest) (jump : Jump) : Statement (.rdOrRm dest jump) := fun _ => packed ..

theorem illegalCompCode (comp : BitVec 7) (dest : Dest) (jump : Jump) :
    Statement (.illegalCompCode comp dest jump) := fun _ => packed ..

end Sys2Proof.Laws.EncodedFields
end

