-- ==== Sys2Proof/Laws/Step.lean ====
section
/-! SUPPORT. What a step can do, said once, and the induction over runs and host sessions. -/

namespace Sys2Proof.Machine

/-- The dispatch is the parametric meaning at the default parameters. -/
theorem exec_eq_execWith (i : Instr) (s : State) : exec i s = execWith Config.default i s := by
  cases i <;> rfl

theorem step_eq_stepWith (s : State) : step s = stepWith Config.default s := by
  show (exec _ _ : Host.Outcome State Fault Refusal) = _
  rw [exec_eq_execWith]; rfl

/-- The result of a compute word under a configuration: the operation its comp code selects, or the sentinel (R71, R100, R130). -/
def resultOf (c : Config) (inst : Word) (o : Operands) : Word :=
  match c.opOfCode (compField inst) with
  | some op => alu op o
  | none => c.illegalCompResult

theorem execWith_decode_address (c : Config) {inst : Word} (h : isCompute inst = false) (s : State) :
    execWith c (decodeWith c inst) s = loadAddress c (literalField inst) s := by
  simp [decodeWith, h, execWith]

theorem execWith_decode_compute (c : Config) {inst : Word} (h : isCompute inst = true) (s : State) :
    execWith c (decodeWith c inst) s = compute c (resultOf c inst s.operands)
      (Dest.ofCode (destField inst)) (Jump.ofCode (jumpField inst)) s := by
  cases hop : c.opOfCode (compField inst) <;> simp [decodeWith, h, execWith, resultOf, hop]

theorem execWith_ofOp (c : Config) (op : AluOp) (dest : Dest) (jump : Jump) (s : State) :
    execWith c (Instr.ofOp op dest jump) s = compute c (alu op s.operands) dest jump s := by
  simp [execWith]

theorem execWith_illegalCompCode (c : Config) (comp : BitVec 7) (dest : Dest) (jump : Jump) (s : State) :
    execWith c (.illegalCompCode comp dest jump) s = compute c c.illegalCompResult dest jump s := rfl

/-- Once its refresh has an outcome, a step is its instruction's effect on the refreshed state. -/
theorem stepWith_of_refresh {c : Config} {s : State} {a : Addr} (h : effectiveAddress c s.ra = .ok a) :
    stepWith c s = execWith c (decodeWith c (fetch s)) (s.setRm (s.dmem.read (addr15 s.ra))) := by
  have ha := effectiveAddress_ok h
  subst ha
  simp only [stepWith, refreshRm, h]
  rfl

theorem stepWith_of_refresh_error {c : Config} {s : State} {f : Fault} (h : effectiveAddress c s.ra = .error f) :
    stepWith c s = .fault f := by
  simp only [stepWith, refreshRm, h]

theorem refreshRm_ok {c : Config} {s t : State} (h : refreshRm c s = .ok t) :
    t = s.setRm (s.dmem.read (addr15 s.ra)) := by
  unfold refreshRm at h
  split at h
  · cases h
  next a ha => cases h; rw [effectiveAddress_ok ha]

theorem refreshRm_default (s : State) : refreshRm Config.default s = .ok (s.setRm (s.dmem.read (addr15 s.ra))) := rfl

/-- The state in which the instruction of a step executes: `rm` is fresh (R81). -/
def refreshed (s : State) : State := s.setRm (s.dmem.read (addr15 s.ra))

/-- What a step can do under any parameters, when it has an outcome: the two instruction classes (R89). -/
theorem stepWith_next {c : Config} {s t : State} (h : stepWith c s = .next t) :
    (isCompute (fetch s) = false ∧
      t = ((refreshed s).setRa (zext16 (literalField (fetch s)))).setPc (zext16 (addr15 (s.pc + 1)))) ∨
    (isCompute (fetch s) = true ∧
      Computed c (resultOf c (fetch s) (refreshed s).operands) (Dest.ofCode (destField (fetch s)))
        (Jump.ofCode (jumpField (fetch s))) (refreshed s) t) := by
  unfold stepWith at h
  split at h
  · cases h
  next s₁ hs =>
    have hs := refreshRm_ok hs
    subst hs
    change execWith c (decodeWith c (fetch s)) (refreshed s) = .next t at h
    cases hc : isCompute (fetch s)
    · rw [execWith_decode_address c hc] at h
      exact .inl ⟨rfl, loadAddress_next h⟩
    · rw [execWith_decode_compute c hc] at h
      exact .inr ⟨rfl, compute_next h⟩

/-- An invariant of steps is an invariant of runs. -/
theorem runWith_induction {P : State → Prop} {c : Config} (hstep : ∀ s t, P s → stepWith c s = .next t → P t) :
    ∀ (n : Nat) (s t : State), P s → runWith c n s = .next t → P t
  | 0, s, t, hs, h => by cases h; exact hs
  | n + 1, s, t, hs, h => by
    simp only [runWith] at h
    split at h
    next u hu => exact runWith_induction hstep n u t (hstep s u hs hu) h
    · cases h
    · cases h

theorem stateAfter_replyOfOutcome {s t : State} {o : Host.Outcome State Fault Refusal}
    (h : stateAfter s (replyOfOutcome o) = some t) : o = .next t := by
  cases o <;> simp [replyOfOutcome, stateAfter] at h
  rw [h]

theorem stateAfter_replyOf {s t : State} {e : Except HostError State} (h : stateAfter s (replyOf e) = some t) :
    e = .ok t ∨ t = s := by
  cases e <;> simp [replyOf, stateAfter] at h
  · exact .inr h.symm
  · exact .inl (by rw [h])

theorem loadProgram_ok {words : List Word} {s t : State} (h : loadProgram words s = .ok t) :
    words.length ≤ 32768 ∧ t = { s with imem := Memory.ofWords 0 words } := by
  unfold loadProgram at h
  split at h
  · cases h
  next hl => cases h; exact ⟨Nat.not_lt.mp hl, rfl⟩

theorem loadText_ok {lines : List (List Char)} {s t : State} (h : loadText lines s = .ok t) :
    ∃ words, loadProgram words s = .ok t := by
  unfold loadText at h
  split at h
  · cases h
  next words _ => exact ⟨words, h⟩

theorem writeData_ok {a : Nat} {v : Word} {s t : State} (h : writeData a v s = .ok t) :
    a < 32768 ∧ t = memWrite (BitVec.ofNat 15 a) v s := by
  unfold writeData at h
  split at h
  next ha => cases h; exact ⟨ha, rfl⟩
  · cases h

theorem setProgramCounter_ok {c : Config} {a : Word} {s t : State} (h : setProgramCounter c a s = .ok t) :
    t = s.setPc (zext16 (addr15 a)) := by
  unfold setProgramCounter at h
  split at h
  · cases h; rfl
  · split at h
    · cases h
    · cases h; rfl

/-- What a host call can do to the state, under any parameters: nothing, steps, a `pc`, a reset, one data write, a whole image. -/
theorem hostCall_effect {c : Config} {op : HostOp} {s t : State} (h : stateAfter s (hostCall c op s) = some t) :
    t = s ∨ (∃ n, runWith c n s = .next t) ∨ (∃ a, t = s.setPc (zext16 (addr15 a))) ∨
    (op = .reset ∧ t = resetMachine s) ∨ (∃ a v, t = memWrite a v s) ∨
    ∃ words, ((∃ ws, op = .loadProgram ws) ∨ ∃ ls, op = .loadText ls) ∧
      words.length ≤ 32768 ∧ t = { s with imem := Memory.ofWords 0 words } := by
  cases op with
  | step => exact .inr (.inl ⟨1, by have := stateAfter_replyOfOutcome h; simp [runWith, this]⟩)
  | run n => exact .inr (.inl ⟨n.toNat, stateAfter_replyOfOutcome h⟩)
  | setProgramCounter a =>
    rcases stateAfter_replyOf h with h | h
    · exact .inr (.inr (.inl ⟨a, setProgramCounter_ok h⟩))
    · exact .inl h
  | reset => cases h; exact .inr (.inr (.inr (.inl ⟨rfl, rfl⟩)))
  | readData a => cases h; exact .inl rfl
  | readInstruction a => cases h; exact .inl rfl
  | writeData a v =>
    rcases stateAfter_replyOf h with h | h
    · exact .inr (.inr (.inr (.inr (.inl ⟨_, v, (writeData_ok h).2⟩))))
    · exact .inl h
  | loadProgram words =>
    rcases stateAfter_replyOf h with h | h
    · exact .inr (.inr (.inr (.inr (.inr ⟨words, .inl ⟨words, rfl⟩, loadProgram_ok h⟩))))
    · exact .inl h
  | loadText lines =>
    rcases stateAfter_replyOf h with h | h
    · obtain ⟨words, hw⟩ := loadText_ok h
      exact .inr (.inr (.inr (.inr (.inr ⟨words, .inr ⟨lines, rfl⟩, loadProgram_ok hw⟩))))
    · exact .inl h

/-- An invariant of host calls is an invariant of host sessions. -/
theorem session_induction {P : State → Prop} {c : Config}
    (hcall : ∀ op s t, P s → stateAfter s (hostCall c op s) = some t → P t) :
    ∀ (ops : List HostOp) (s t : State), P s → session c ops s = some t → P t
  | [], s, t, hs, h => by cases h; exact hs
  | op :: rest, s, t, hs, h => by
    simp only [session] at h
    split at h
    · cases h
    next u hu => exact session_induction hcall rest u t (hcall op s u hs hu) h

/-- A property of the state after creation that every host call keeps holds of every reachable state. -/
theorem reachable_induction {P : State → Prop} {c : Config} (h0 : P State.reset)
    (hcall : ∀ op s t, P s → stateAfter s (hostCall c op s) = some t → P t) {s : State} (h : Reachable c s) : P s := by
  obtain ⟨ops, hops⟩ := h
  exact session_induction hcall ops _ _ h0 hops

end Sys2Proof.Machine
end

