-- ==== Sys2Proof/Tests/Slice0.lean ====
section
/-! SUPPORT. The model's own tests. Expected values are from spec/95_test_vectors.md (V1 to V7, S1 to S8), from the word
columns of spec/30_encoding.md R66 or worked by hand from the rule named; the last section shows, for each obligation with
hypotheses, a concrete case that meets them. -/

namespace Sys2Proof.Tests

open Sys2Proof.Machine

/-- A state with one instruction word at `pc` and the given data words. -/
def start (word : Word) (pc ra rd : Word) (data : List (Addr × Word)) : State where
  pc := pc
  ra := ra
  rd := rd
  rm := 0
  imem := Memory.write [] (addr15 pc) word
  dmem := data.foldl (fun m cell => m.write cell.1 cell.2) []
  events := []

/-- The state after one step, and the state itself where there is none (then every test on it fails or `stepped` does). -/
def after (s : State) : State :=
  match step s with
  | .next t => t
  | _ => s

/-- The default parameters without `-ra`. -/
def withoutNegRa : Config := { Config.default with negRaPresent := false }

/-- The default parameters with `ADDR_POLICY = fault` and `PC_OVERFLOW = fault`. -/
def faulting : Config := { Config.default with addrPolicy := .fault, pcOverflow := .fault }

/-- The destination sets and the plain jump of the tests below. -/
abbrev toNone : Dest := ⟨false, false, false⟩
abbrev toM : Dest := ⟨false, false, true⟩
abbrev toD : Dest := ⟨false, true, false⟩
abbrev toA : Dest := ⟨true, false, false⟩
abbrev toAD : Dest := ⟨true, true, false⟩
abbrev toAM : Dest := ⟨true, false, true⟩
abbrev toAMD : Dest := ⟨true, true, true⟩

/-! ### Well-formedness: each check refuses an ill-formed term -/

theorem test_wellFormed_refuses_absent_negRa :
    Instr.wellFormedIn withoutNegRa (.negRa toD .never) = false ∧ Instr.wellFormed (.negRa toD .never) = true := by decide

theorem test_wellFormed_refuses_legal_code_as_illegal :
    Instr.wellFormed (.illegalCompCode 0x2A toD .never) = false ∧
    Instr.wellFormed (.illegalCompCode 0x6A toD .never) = true := by decide

theorem test_wellFormed_code_0x33_follows_negRaPresent :
    Instr.wellFormed (.illegalCompCode 0x33 toD .never) = false ∧
    Instr.wellFormedIn withoutNegRa (.illegalCompCode 0x33 toD .never) = true := by decide

/-! ### Decoding: each constructor from a word written out from R61, R62 and R66; encoding gives the same word -/

theorem test_decode_address : decode 0b0110000000000000 = .address 24576 ∧ encode (.address 24576) = 0x6000 := by decide

theorem test_decode_zero : decode 0b1110101010010000 = .zero toD .never ∧ encode (.zero toD .never) = 0xEA90 := by decide

theorem test_decode_one : decode 0b1110111111011011 = .one ⟨false, true, true⟩ .jge ∧ encode (.one ⟨false, true, true⟩ .jge) = 0xEFDB := by decide

theorem test_decode_minusOne : decode 0b1110111010100110 = .minusOne toA .jle ∧ encode (.minusOne toA .jle) = 0xEEA6 := by decide

theorem test_decode_passRd : decode 0b1110001100101001 = .passRd toAM .jgt ∧ encode (.passRd toAM .jgt) = 0xE329 := by decide

theorem test_decode_passRa : decode 0b1110110000110100 = .passRa toAD .jlt ∧ encode (.passRa toAD .jlt) = 0xEC34 := by decide

theorem test_decode_notRd : decode 0b1110001101111111 = .notRd toAMD .jmp ∧ encode (.notRd toAMD .jmp) = 0xE37F := by decide

theorem test_decode_notRa : decode 0b1110110001000010 = .notRa toNone .jeq ∧ encode (.notRa toNone .jeq) = 0xEC42 := by decide

theorem test_decode_negRd : decode 0b1110001111001101 = .negRd toM .jne ∧ encode (.negRd toM .jne) = 0xE3CD := by decide

theorem test_decode_negRa : decode 0b1110110011010000 = .negRa toD .never ∧ encode (.negRa toD .never) = 0xECD0 := by decide

theorem test_decode_incRd : decode 0b1110011111011011 = .incRd ⟨false, true, true⟩ .jge ∧ encode (.incRd ⟨false, true, true⟩ .jge) = 0xE7DB := by decide

theorem test_decode_incRa : decode 0b1110110111100110 = .incRa toA .jle ∧ encode (.incRa toA .jle) = 0xEDE6 := by decide

theorem test_decode_decRd : decode 0b1110001110101001 = .decRd toAM .jgt ∧ encode (.decRd toAM .jgt) = 0xE3A9 := by decide

theorem test_decode_decRa : decode 0b1110110010110100 = .decRa toAD .jlt ∧ encode (.decRa toAD .jlt) = 0xECB4 := by decide

theorem test_decode_rdAddRa : decode 0b1110000010111111 = .rdAddRa toAMD .jmp ∧ encode (.rdAddRa toAMD .jmp) = 0xE0BF := by decide

theorem test_decode_rdSubRa : decode 0b1110010011000010 = .rdSubRa toNone .jeq ∧ encode (.rdSubRa toNone .jeq) = 0xE4C2 := by decide

theorem test_decode_raSubRd : decode 0b1110000111001101 = .raSubRd toM .jne ∧ encode (.raSubRd toM .jne) = 0xE1CD := by decide

theorem test_decode_rdAndRa : decode 0b1110000000010000 = .rdAndRa toD .never ∧ encode (.rdAndRa toD .never) = 0xE010 := by decide

theorem test_decode_rdOrRa : decode 0b1110010101011011 = .rdOrRa ⟨false, true, true⟩ .jge ∧ encode (.rdOrRa ⟨false, true, true⟩ .jge) = 0xE55B := by decide

theorem test_decode_passRm : decode 0b1111110000100110 = .passRm toA .jle ∧ encode (.passRm toA .jle) = 0xFC26 := by decide

theorem test_decode_notRm : decode 0b1111110001101001 = .notRm toAM .jgt ∧ encode (.notRm toAM .jgt) = 0xFC69 := by decide

theorem test_decode_negRm : decode 0b1111110011110100 = .negRm toAD .jlt ∧ encode (.negRm toAD .jlt) = 0xFCF4 := by decide

theorem test_decode_incRm : decode 0b1111110111111111 = .incRm toAMD .jmp ∧ encode (.incRm toAMD .jmp) = 0xFDFF := by decide

theorem test_decode_decRm : decode 0b1111110010000010 = .decRm toNone .jeq ∧ encode (.decRm toNone .jeq) = 0xFC82 := by decide

theorem test_decode_rdAddRm : decode 0b1111000010001101 = .rdAddRm toM .jne ∧ encode (.rdAddRm toM .jne) = 0xF08D := by decide

theorem test_decode_rdSubRm : decode 0b1111010011010000 = .rdSubRm toD .never ∧ encode (.rdSubRm toD .never) = 0xF4D0 := by decide

theorem test_decode_rmSubRd : decode 0b1111000111011011 = .rmSubRd ⟨false, true, true⟩ .jge ∧ encode (.rmSubRd ⟨false, true, true⟩ .jge) = 0xF1DB := by decide

theorem test_decode_rdAndRm : decode 0b1111000000100110 = .rdAndRm toA .jle ∧ encode (.rdAndRm toA .jle) = 0xF026 := by decide

theorem test_decode_rdOrRm : decode 0b1111010101101001 = .rdOrRm toAM .jgt ∧ encode (.rdOrRm toAM .jgt) = 0xF569 := by decide

theorem test_decode_illegalCompCode :
    decode 0b1111101010010000 = .illegalCompCode 0x6A toD .never ∧
    decode 0xFFFF = .illegalCompCode 0x7F toAMD .jmp ∧ decode 0xE040 = .illegalCompCode 0x01 toNone .never := by decide

/-- V1: the four settings of bits 14:13 are the same `D=A`. -/
theorem test_decode_ignores_bits_14_13 :
    [(0x8C10 : Word), 0xAC10, 0xCC10, 0xEC10].map decode = List.replicate 4 (.passRa toD .never) := by decide

/-- V1, last column: without `-ra` its word is an illegal code. -/
theorem test_decode_negRa_absent : decodeWith withoutNegRa 0xECD0 = .illegalCompCode 0x33 toD .never := by decide

theorem test_decodeTableWord :
    decodeTableWord 16 0xF088 = some (.rdAddRm toM .never) ∧ decodeTableWord 8 0x05 = some (.address 5) ∧
    decodeTableWord 32 0xF088 = none := by decide

/-! ### One step of each instruction (V2 to V5, S1 to S8) -/

/-- V2, second row: the wrap of `pc`. -/
theorem test_address_wraps_pc :
    (after (start 0x0001 32767 0 0 [])).pc = 0 ∧ (after (start 0x0001 32767 0 0 [])).ra = 1 := by decide

/-- V2, third row: the refresh drops bit 15 of the old `ra`, and loading a display address emits nothing. -/
theorem test_address_refreshes_rm :
    let t := after (start 0x4000 5 0x8005 0 [(5, 42)])
    t.rm = 42 ∧ t.ra = 0x4000 ∧ t.pc = 6 ∧ t.events = [] := by decide

/-- The result of a `D=` word on the operand sets S1, S4 and S5 of V3. -/
def onOperandSets (word : Word) : List Word :=
  [(after (start word 0 3 5 [(3, 9)])).rd, (after (start word 0 0x7FFF 0x8000 [(0x7FFF, 1)])).rd,
    (after (start word 0 0x8000 0x7FFF [(0, 0x8000)])).rd]

theorem test_result_zero : onOperandSets 0xEA90 = [0x0000, 0x0000, 0x0000] := by decide

theorem test_result_one : onOperandSets 0xEFD0 = [0x0001, 0x0001, 0x0001] := by decide

theorem test_result_minusOne : onOperandSets 0xEE90 = [0xFFFF, 0xFFFF, 0xFFFF] := by decide

theorem test_result_passRd : onOperandSets 0xE310 = [0x0005, 0x8000, 0x7FFF] := by decide

theorem test_result_passRa : onOperandSets 0xEC10 = [0x0003, 0x7FFF, 0x8000] := by decide

theorem test_result_notRd : onOperandSets 0xE350 = [0xFFFA, 0x7FFF, 0x8000] := by decide

theorem test_result_notRa : onOperandSets 0xEC50 = [0xFFFC, 0x8000, 0x7FFF] := by decide

theorem test_result_negRd : onOperandSets 0xE3D0 = [0xFFFB, 0x8000, 0x8001] := by decide

theorem test_result_negRa : onOperandSets 0xECD0 = [0xFFFD, 0x8001, 0x8000] := by decide

theorem test_result_incRd : onOperandSets 0xE7D0 = [0x0006, 0x8001, 0x8000] := by decide

theorem test_result_incRa : onOperandSets 0xEDD0 = [0x0004, 0x8000, 0x8001] := by decide

theorem test_result_decRd : onOperandSets 0xE390 = [0x0004, 0x7FFF, 0x7FFE] := by decide

theorem test_result_decRa : onOperandSets 0xEC90 = [0x0002, 0x7FFE, 0x7FFF] := by decide

theorem test_result_rdAddRa : onOperandSets 0xE090 = [0x0008, 0xFFFF, 0xFFFF] := by decide

theorem test_result_rdSubRa : onOperandSets 0xE4D0 = [0x0002, 0x0001, 0xFFFF] := by decide

theorem test_result_raSubRd : onOperandSets 0xE1D0 = [0xFFFE, 0xFFFF, 0x0001] := by decide

theorem test_result_rdAndRa : onOperandSets 0xE010 = [0x0001, 0x0000, 0x0000] := by decide

theorem test_result_rdOrRa : onOperandSets 0xE550 = [0x0007, 0xFFFF, 0xFFFF] := by decide

theorem test_result_passRm : onOperandSets 0xFC10 = [0x0009, 0x0001, 0x8000] := by decide

theorem test_result_notRm : onOperandSets 0xFC50 = [0xFFF6, 0xFFFE, 0x7FFF] := by decide

theorem test_result_negRm : onOperandSets 0xFCD0 = [0xFFF7, 0xFFFF, 0x8000] := by decide

theorem test_result_incRm : onOperandSets 0xFDD0 = [0x000A, 0x0002, 0x8001] := by decide

theorem test_result_decRm : onOperandSets 0xFC90 = [0x0008, 0x0000, 0x7FFF] := by decide

theorem test_result_rdAddRm : onOperandSets 0xF090 = [0x000E, 0x8001, 0xFFFF] := by decide

theorem test_result_rdSubRm : onOperandSets 0xF4D0 = [0xFFFC, 0x7FFF, 0xFFFF] := by decide

theorem test_result_rmSubRd : onOperandSets 0xF1D0 = [0x0004, 0x8001, 0x0001] := by decide

theorem test_result_rdAndRm : onOperandSets 0xF010 = [0x0001, 0x0000, 0x0000] := by decide

theorem test_result_rdOrRm : onOperandSets 0xF550 = [0x000D, 0x8001, 0xFFFF] := by decide

theorem test_result_illegalCompCode : onOperandSets 0xFA90 = [0x0539, 0x0539, 0x0539] := by decide

/-- V5: `0;JMP` drops bit 15 of the target. -/
theorem test_zero_jumps_to_low_15_bits : (after (start 0xEA87 20 0x8007 0 [])).pc = 7 := by decide

/-- P9: `A=-1` stores all 16 bits. -/
theorem test_minusOne_to_ra : (after (start 0xEEA0 1 0 0 [])).ra = 0xFFFF := by decide

/-- V4: `M=D` with bit 15 of `ra` set stores at the low 15 bits. -/
theorem test_passRd_stores_at_low_15_bits : (after (start 0xE308 0 0x8064 9 [])).dmem = [(0x64, 9)] := by decide

/-- V4: `AM=D-1` stores at the new `ra`, here 0xFFFF, so at 0x7FFF. -/
theorem test_decRd_stores_at_new_ra : (after (start 0xE3A8 0 0 0 [])).dmem = [(0x7FFF, 0xFFFF)] := by decide

/-- V4 and S6: `AMD=D+1` writes `ra`, `rd` and the word at the new `ra`, and leaves the word at the old one. -/
theorem test_incRd_to_all :
    let t := after (start 0xE7F8 0 100 7 [(100, 50), (8, 60)])
    t.ra = 8 ∧ t.rd = 8 ∧ t.dmem = [(8, 8), (100, 50)] ∧ t.rm = 50 ∧ t.pc = 1 := by decide

/-- V4: `AD=A+1` gives both registers one value. -/
theorem test_incRa_to_ra_and_rd :
    let t := after (start 0xEDF0 0 3 0 [])
    t.ra = 4 ∧ t.rd = 4 := by decide

/-- V4: `M=M+1` reads the old word, and `rm` keeps it. -/
theorem test_incRm_in_place :
    let t := after (start 0xFDC8 0 100 0 [(100, 50)])
    t.dmem = [(100, 51)] ∧ t.rm = 50 := by decide

/-- P8: `AM=M-1` does not decrement the word it read. -/
theorem test_decRm_hazard :
    let t := after (start 0xFCA8 1 0 0 [(0, 256), (255, 77)])
    t.ra = 255 ∧ t.dmem = [(0, 256), (255, 255)] := by decide

/-- R120: `M=M` in the display range rewrites the word and emits 16 events; R40 gives the first and the last. -/
theorem test_passRm_emits :
    let t := after (start 0xFC08 0 0x5FFF 0 [(0x5FFF, 0x8001)])
    t.dmem = [(0x5FFF, 0x8001)] ∧ t.events.length = 16 ∧
    t.events.head? = some ⟨496, 255, true⟩ ∧ t.events.getLast? = some ⟨511, 255, true⟩ := by decide

/-- `A=A-1;JLT` from `ra = 0`, by hand from R114 and R165: the taken jump goes to the low 15 bits of the new `ra`. -/
theorem test_decRa_jumps_to_new_ra :
    let t := after (start 0xECA4 20 0 0 [])
    t.ra = 0xFFFF ∧ t.pc = 32767 := by decide

/-- P5: the sentinel is positive, so `JGT` is taken. -/
theorem test_illegalCompCode_jumps : (after (start 0xFA81 3 5 1337 [])).pc = 5 := by decide

/-! ### The jump table (V5), the display (V6) and the host's operations (V7) -/

/-- V5: taken or not, for the results 0x0000, 0x0001, 0x7FFF, 0x8000, 0xFFFF and the sentinel. -/
theorem test_jump_table :
    ([.never, .jgt, .jeq, .jge, .jlt, .jne, .jle, .jmp] : List Jump).map
      (fun j => ([0x0000, 0x0001, 0x7FFF, 0x8000, 0xFFFF, 0x0539] : List Word).map (jumpCond j)) =
    [[false, false, false, false, false, false], [false, true, true, false, false, true],
     [true, false, false, false, false, false], [true, true, true, false, false, true],
     [false, false, false, true, true, false], [false, true, true, true, true, true],
     [true, false, false, true, true, false], [true, true, true, true, true, true]] := by decide

/-- V6: the columns that are on, for six of its writes. -/
theorem test_display_columns :
    ([(0x4020, 0x8000), (0x401F, 0x0001), (0x5FFF, 0x8001), (0x4021, 0x00FF), (0x5000, 0xA5A5), (0x4000, 0x0000)] :
        List (Addr × Word)).map (fun w => ((displayExpand w.1 w.2).filter (·.on)).map (·.x)) =
    [[0], [511], [496, 511], [24, 25, 26, 27, 28, 29, 30, 31], [0, 2, 5, 7, 8, 10, 13, 15], []] := by decide

/-- V6: no events just outside the range. -/
theorem test_display_edges :
    ([0x3FFF, 0x6000, 0x7FFF] : List Addr).map (fun a => (memWrite a 0xFFFF State.reset).events) = [[], [], []] := by decide

/-- V7: a load, and a shorter load after it. -/
theorem test_load_program :
    (loadProgram [0x0002, 0xEC10] State.reset).toOption.map (·.imem) = some [(0, 0x0002), (1, 0xEC10)] ∧
    (((loadProgram [0x0002, 0xEC10] State.reset).toOption.bind fun s => (loadProgram [0x0007] s).toOption).map (·.imem))
      = some [(0, 0x0007)] := by decide

/-- V7: `set_program_counter(0x8010)` stores 16. -/
theorem test_set_program_counter :
    (setProgramCounter Config.default 0x8010 State.reset).toOption.map (·.pc) = some 16 ∧
    (setProgramCounter faulting 0x8010 State.reset).toOption = none := by decide

/-- R76's example line, and R204's malformed line. -/
theorem test_program_text :
    parseLine "1110110000010000".toList = some 0xEC10 ∧ parseLine "111011000001000".toList = none ∧
    parseLine "111011000001000x".toList = none := by decide

/-- S7: after `reset`, registers and data are zero and the program is kept. -/
theorem test_reset :
    resetMachine ⟨2, 2, 2, 0, [(0, 2), (1, 0xEC10)], [(5, 9)], []⟩ = ⟨0, 0, 0, 0, [(0, 2), (1, 0xEC10)], [], []⟩ := by
  decide

/-- V4, last column, and V5: the alternative values of `MEM_WRITE_ADDR` and `JUMP_TARGET`. -/
theorem test_old_ra_parameters :
    let old := { Config.default with memWriteAddr := .oldRa, jumpTarget := .oldRa }
    (∃ t, stepWith old (start 0xE7E8 0 100 7 [(100, 50), (8, 60)]) = .next t ∧ t.ra = 8 ∧ t.dmem = [(8, 60), (100, 8)]) ∧
    ∃ t, stepWith old (start 0xE327 20 50 7 []) = .next t ∧ t.ra = 7 ∧ t.pc = 50 :=
  ⟨⟨_, rfl, by decide⟩, ⟨_, rfl, by decide⟩⟩

/-- V3: with `NEG_RA_PRESENT = false` code 0x33 gives the sentinel. -/
theorem test_negRa_absent_result : ∃ t, stepWith withoutNegRa (start 0xECD0 0 3 5 []) = .next t ∧ t.rd = 1337 :=
  ⟨_, rfl, by decide⟩

/-! ### A concrete case for the hypotheses of each obligation -/

open Sys2Proof.Claims

theorem witness_DecodeInvertsEncode :
    Config.default.CodesInjective ∧ Instr.wellFormedIn Config.default (.negRa toAMD .jmp) = true ∧
    Instr.wellFormedIn Config.default (.illegalCompCode 0x7F toAMD .jmp) = true :=
  ⟨Config.default_codesInjective, by decide, by decide⟩

theorem witness_EncodeInvertsDecodeButForIgnoredBits :
    encode (decode 0x7FFF) = 0x7FFF ∧ encode (decode 0x8000) = 0xE000 := by decide

theorem witness_IgnoredBitsTakeNoPartInDecoding :
    32768 ≤ (0x8C10 : Word).toNat ∧ 32768 ≤ (0xEC10 : Word).toNat ∧
    (0x8C10 : Word).toNat % 8192 = (0xEC10 : Word).toNat % 8192 := by decide

theorem witness_TopBitSelectsTheInstructionClass :
    (0x7FFF : Word).toNat < 32768 ∧ 32768 ≤ (0x8000 : Word).toNat ∧
    ∃ t, execWith Config.default (.address 0x7FFF) State.reset = .next t := ⟨by decide, by decide, _, rfl⟩

theorem witness_StepRunsTheDecodedInstruction :
    decode ((start 0xE7F8 0 100 7 []).imem.read (addr15 0)) = .incRd toAMD .never ∧
    Instr.wellFormed (.incRd toAMD .never) = true := by decide

/-- One state of each class of word, and both outcomes of a jump field. -/
theorem witness_StepHasTheWordLevelEffect :
    ((start 0x0005 0 1 7 []).imem.read 0).toNat < 32768 ∧ 32768 ≤ ((start 0xE302 0 1 0 []).imem.read 0).toNat ∧
    fieldFires 2 0 ∧ ¬ fieldFires 2 1 := by
  refine ⟨by decide, by decide, ?_, ?_⟩ <;> simp [fieldFires]

theorem witness_EveryStepRefreshesRm : ∃ t, stepWith Config.default (start 0x0005 10 0x1234 7 [(0x1234, 99)]) = .next t ∧ t.rm = 99 :=
  ⟨_, rfl, by decide⟩

theorem witness_PlacedWordIsTheNextOneRun : (1 : Addr) ≠ addr15 State.reset.pc := by decide

theorem witness_IllegalCodesAllActAlike :
    ∃ t, execWith Config.default (.illegalCompCode 0x6A toD .never) State.reset = .next t ∧ toD.rd = true :=
  ⟨_, rfl, rfl⟩

/-- One instruction with every destination enabled, documented and illegal. -/
theorem witness_OneValueForAllDestinations :
    (∃ t, execWith Config.default (Instr.ofOp .incRd toAMD .never) State.reset = .next t) ∧
    (∃ t, execWith Config.default (.illegalCompCode 0x7F toAMD .never) State.reset = .next t) ∧
    toAMD.ra = true ∧ toAMD.rd = true ∧ toAMD.mem = true :=
  ⟨⟨_, rfl⟩, ⟨_, rfl⟩, rfl, rfl, rfl⟩

/-- A form that stores nothing and a word outside the store of a form that stores, of a legal and of an illegal comp code. -/
theorem witness_DisabledDestinationsKeepTheirValue :
    (ComputeResult Config.default toNone .never State.reset (Instr.ofOp .passRd toNone .never) 0 ∧
      ∃ t, execWith Config.default (Instr.ofOp .passRd toNone .never) State.reset = .next t) ∧
    (toNone.ra = false ∧ toNone.rd = false ∧ toNone.mem = false) ∧
    (ComputeResult Config.default toM .never State.reset (.illegalCompCode 0x7F toM .never) 1337 ∧
      ∃ t, execWith Config.default (.illegalCompCode 0x7F toM .never) State.reset = .next t) ∧
    (1 : Addr) ≠ storeTarget Config.default toM 1337 State.reset :=
  ⟨⟨.operation .passRd, _, rfl⟩, ⟨rfl, rfl, rfl⟩, ⟨.illegal _, _, rfl⟩, by decide⟩

/-- `AM=M-1` of R220, and an illegal comp code with the same destinations. -/
theorem witness_AddressAndMemoryDestinationsSpareTheWordRead :
    let s : State := { State.reset with rm := 256 }
    (ComputeResult Config.default toAM .never s (Instr.ofOp .decRm toAM .never) 255 ∧
      (∃ t, exec (Instr.ofOp .decRm toAM .never) s = .next t) ∧ addr15 255 ≠ addr15 s.ra) ∧
    (ComputeResult Config.default toAM .never s (.illegalCompCode 0x7F toAM .never) 1337 ∧
      (∃ t, exec (.illegalCompCode 0x7F toAM .never) s = .next t) ∧ addr15 1337 ≠ addr15 s.ra) ∧
    Config.default.memWriteAddr = .newRa ∧ toAM.ra = true ∧ toAM.mem = true :=
  ⟨⟨.operation .decRm, ⟨_, rfl⟩, by decide⟩, ⟨.illegal _, ⟨_, rfl⟩, by decide⟩, rfl, rfl, rfl⟩

/-- A jump that fires and one that does not, of a legal and of an illegal comp code. -/
theorem witness_ProgramCounterUnderAnyParameters :
    (ComputeResult Config.default toNone .jmp State.reset (Instr.ofOp .zero toNone .jmp) 0 ∧
      (∃ t, execWith Config.default (Instr.ofOp .zero toNone .jmp) State.reset = .next t) ∧ fires .jmp 0 = true) ∧
    ComputeResult Config.default toNone .jlt State.reset (.illegalCompCode 0x7F toNone .jlt) 1337 ∧
      (∃ t, execWith Config.default (.illegalCompCode 0x7F toNone .jlt) State.reset = .next t) ∧ fires .jlt 1337 = false :=
  ⟨⟨.operation .zero, ⟨_, rfl⟩, by decide⟩, .illegal _, ⟨_, rfl⟩, by decide⟩

theorem witness_MaskAndWrapMakeEveryStepComplete :
    Config.default.addrPolicy = .mask ∧ Config.default.pcOverflow = .wrap := ⟨rfl, rfl⟩

/-- A refresh; then `AM=-1` (0xEEA8) and `A=-1;JMP` (0xEEA7), whose old `ra` is 0 and whose new one is 0xFFFF. -/
theorem witness_FaultPolicyStopsOnAddressBit15 :
    (faulting.addrPolicy = .fault ∧ 32768 ≤ (start 0 0 0x8000 0 []).ra.toNat) ∧
    (StepComputes faulting (start 0xEEA8 0 0 0 []) toAM .never 0xFFFF ∧ toAM.mem = true ∧
      32768 ≤ (chosenRa faulting.memWriteAddr toAM 0xFFFF (start 0xEEA8 0 0 0 [])).toNat) ∧
    StepComputes faulting (start 0xEEA7 0 0 0 []) toA .jmp 0xFFFF ∧ fires .jmp 0xFFFF = true ∧
      32768 ≤ (chosenRa faulting.jumpTarget toA 0xFFFF (start 0xEEA7 0 0 0 [])).toNat :=
  ⟨⟨rfl, by decide⟩, ⟨.operation .minusOne, rfl, by decide⟩, .operation .minusOne, by decide, by decide⟩

/-- `@1`, `0;JNE` (0xEA85), `M=0` (0xEA88) and an illegal comp code (0xFA90), all at 32767, with `ra` at its last address. -/
theorem witness_FaultPolicyStopsAtTheLastAddress :
    faulting.pcOverflow = .fault ∧
    (∀ w : Word, (start w 32767 0x7FFF 0 []).pc.toNat = 32767 ∧ Presentable faulting (start w 32767 0x7FFF 0 []).ra) ∧
    ((start 0x0001 32767 0x7FFF 0 []).imem.read 32767).toNat < 32768 ∧
    (StepComputes faulting (start 0xEA85 32767 0x7FFF 0 []) toNone .jne 0 ∧ fires .jne 0 = false) ∧
    (StepComputes faulting (start 0xEA88 32767 0x7FFF 0 []) toM .never 0 ∧
      Presentable faulting (chosenRa faulting.memWriteAddr toM 0 (start 0xEA88 32767 0x7FFF 0 []))) ∧
    StepComputes faulting (start 0xFA90 32767 0x7FFF 0 []) toD .never 1337 ∧ fires .never 1337 = false :=
  ⟨rfl, fun _ => ⟨rfl, .inr (show (0x7FFF : Word).toNat < 32768 by decide)⟩, by decide, ⟨.operation .zero, by decide⟩, ⟨.operation .zero, .inr (by decide)⟩,
    .illegal 0x6A, by decide⟩

theorem witness_DataWriteStoresEverywhere :
    toM.mem = true ∧ Config.default.addrPolicy = .mask ∧ Config.default.pcOverflow = .wrap ∧
    (ComputeResult Config.default toM .never State.reset (Instr.ofOp .passRd toM .never) 0 ∧
      ∃ t, execWith Config.default (Instr.ofOp .passRd toM .never) State.reset = .next t) ∧
    ComputeResult Config.default toM .never State.reset (.illegalCompCode 0x7F toM .never) 1337 ∧
      ∃ t, execWith Config.default (.illegalCompCode 0x7F toM .never) State.reset = .next t :=
  ⟨rfl, rfl, rfl, ⟨.operation .passRd, _, rfl⟩, .illegal _, _, rfl⟩

/-- The first and the last address of the display range. -/
theorem witness_DisplayExpandEmitsThePixelsOfTheWord :
    (16384 ≤ (0x4000 : Addr).toNat ∧ (0x4000 : Addr).toNat < 24576) ∧
    16384 ≤ (0x5FFF : Addr).toNat ∧ (0x5FFF : Addr).toNat < 24576 := by decide

/-- The addresses on either side of both ends of the display range. -/
theorem witness_EveryDisplayWriteEmitsSixteenEvents :
    (16384 ≤ (0x4000 : Addr).toNat ∧ (0x5FFF : Addr).toNat < 24576) ∧
    (0x3FFF : Addr).toNat < 16384 ∧ 24576 ≤ (0x6000 : Addr).toNat := by decide

theorem witness_EveryPixelBelongsToOneDisplayBit :
    inDisplay 0x5FFF = true ∧ (15 : Nat) < 16 ∧ (511 : Nat) < 512 ∧ (255 : Nat) < 256 ∧
    (pixelEvent 0x5FFF 0 15).x = 511 ∧ (pixelEvent 0x5FFF 0 15).y = 255 := by decide

theorem witness_RepeatedDataWrites :
    inDisplay 0x3FFF = false ∧ inDisplay 0x6000 = false ∧ inDisplay 0x4000 = true ∧ inDisplay 0x5FFF = true := by decide

theorem witness_CanonicalMemoriesThatReadAlikeAreEqual :
    Memory.wf [(0, 1), (32767, 0xFFFF)] = true ∧ Memory.wf [(0, 1), (32768, 1)] = false ∧
    Memory.wf [(5, 0)] = false ∧ Memory.wf [(5, 1), (5, 1)] = false := by decide

theorem witness_PictureFollowsDataMemoryUntilReset :
    HostOp.reset ∉ [HostOp.writeData 0x4000 0xFFFF, HostOp.step] ∧ PictureAgrees State.reset ∧
    ∃ t, session Config.default [HostOp.writeData 0x4000 0xFFFF, HostOp.step] State.reset = some t :=
  ⟨by decide, fun x y _ _ => by simp [picture, displayBit], _, rfl⟩

theorem witness_EveryStepKeepsTheInvariant :
    State.reset.Inv ∧ (∃ t, step State.reset = .next t) ∧ ∃ t, stepWith faulting State.reset = .next t :=
  ⟨⟨by decide, rfl, rfl, by simp⟩, ⟨_, rfl⟩, ⟨_, rfl⟩⟩

theorem witness_EveryHostCallKeepsTheInvariant :
    State.reset.Inv ∧ ∃ t, stateAfter State.reset (hostCall Config.default (.writeData 0x5FFF 1) State.reset) = some t ∧
      t.events.length = 16 :=
  ⟨⟨by decide, rfl, rfl, by simp⟩, _, rfl, by decide⟩

theorem witness_EveryReachableStateMeetsTheInvariant : ∃ s, Reachable Config.default s ∧ s.dmem = [(0x4000, 0xFFFF)] :=
  ⟨_, ⟨[HostOp.writeData 0x4000 0xFFFF], rfl⟩, by decide⟩

theorem witness_OnlyLoadsWriteInstructionMemory :
    (∃ t, runWith Config.default 3 State.reset = .next t) ∧
    (∀ words, HostOp.reset ≠ .loadProgram words) ∧ (∀ lines, HostOp.reset ≠ .loadText lines) ∧
    ∃ t, stateAfter State.reset (hostCall Config.default .reset State.reset) = some t :=
  ⟨⟨_, rfl⟩, by simp, by simp, ⟨_, rfl⟩⟩

/-- An `AMD=D+1` into the display changes everything the table lists for it. -/
theorem witness_StepsChangeOnlyWhatTheAccessTableLists :
    let s := start 0xE7F8 0 100 0x3FFF []
    ∃ t, step s = .next t ∧ t.ra ≠ s.ra ∧ t.rd ≠ s.rd ∧ t.dmem.read 0x4000 ≠ s.dmem.read 0x4000 ∧ t.events ≠ s.events :=
  ⟨_, rfl, by decide, by decide, by decide, by decide⟩

theorem witness_EventStreamOnlyGrowsBySixteens :
    ∃ t, session Config.default [HostOp.writeData 0x4000 0, HostOp.reset] State.reset = some t := ⟨_, rfl⟩

theorem witness_OperationsReadOnlyTheirNamedRegisters :
    AluOp.rdAddRa ∉ [AluOp.passRm, .notRm, .negRm, .incRm, .decRm, .rdAddRm, .rdSubRm, .rmSubRd, .rdAndRm, .rdOrRm] ∧
    AluOp.rdAddRm ∉ [AluOp.passRa, .notRa, .negRa, .incRa, .decRa, .rdAddRa, .rdSubRa, .raSubRd, .rdAndRa, .rdOrRa] ∧
    AluOp.incRm ∉ [AluOp.passRd, .notRd, .negRd, .incRd, .decRd, .rdAddRa, .rdSubRa, .raSubRd, .rdAndRa, .rdOrRa,
      .rdAddRm, .rdSubRm, .rmSubRd, .rdAndRm, .rdOrRm] := by decide

/-- Both states of the loop that ends P1: `6: @6`, `7: 0;JMP`. -/
theorem witness_TerminalStatesStayInTheirLoop :
    Terminal 6 ⟨6, 6, 5, 0, [(6, 6), (7, 0xEA87)], [(0, 5)], []⟩ ∧
    Terminal 6 ⟨7, 6, 5, 5, [(6, 6), (7, 0xEA87)], [(0, 5)], []⟩ := by
  refine ⟨⟨?_, ?_, ?_, ?_, ?_, .inl ?_⟩, ⟨?_, ?_, ?_, ?_, ?_, .inr ⟨?_, ?_⟩⟩⟩ <;> decide

theorem witness_EmptyScheduleIsAPlainRun : Config.default.hostWrites = [] := rfl

/-- A schedule with a write before step 1 and one that no step reaches. -/
theorem witness_ScheduledRunIsAHostSession :
    let c := { Config.default with hostWrites := [⟨1, keyboardAddr, 65⟩, ⟨9, 0, 1⟩] }
    ∃ t, runScheduled c 0 2 State.reset = .next t ∧ t.dmem = [(24576, 65)] := ⟨_, rfl, by decide⟩

/-- The addresses on either side of the bound, under each value of `PC_OVERFLOW`. -/
theorem witness_SetProgramCounterWritesPcAlone :
    Config.default.pcOverflow = .wrap ∧ (0x7FFF : Word).toNat < 32768 ∧
    faulting.pcOverflow = .fault ∧ 32768 ≤ (0x8000 : Word).toNat := by decide

/-- The longest program that fits. -/
theorem witness_LoadProgramReplacesTheWholeImage : (List.replicate 32768 (0 : Word)).length ≤ 32768 :=
  List.length_replicate.le

/-- The shortest program that does not fit, and three malformed lines. -/
theorem witness_LoadErrorsChangeNothing :
    32768 < (List.replicate 32769 (0 : Word)).length ∧
    ¬ WellFormedLine (List.replicate 15 '0') ∧ ¬ WellFormedLine (List.replicate 17 '1') ∧
    ¬ WellFormedLine ('2' :: List.replicate 15 '0') := by
  refine ⟨by rw [List.length_replicate]; exact Nat.lt_succ_self _, ?_, ?_, ?_⟩ <;> simp [WellFormedLine]

theorem witness_LoadAndResetCommute : ∃ t, loadProgram [0x0002, 0xEC10] State.reset = .ok t := ⟨_, rfl⟩

/-- P6: the host writes the keyboard cell while `ra` addresses it; and a write elsewhere. -/
theorem witness_HostWriteIsSeenByTheNextStep :
    let s := start 0xFC10 1 0x6000 0 []
    (∃ t u, writeData 24576 65 s = .ok t ∧ step t = .next u ∧ s.ra.toNat % 32768 = 24576 ∧ u.rm = 65) ∧
    ∃ t u, writeData 32767 65 s = .ok t ∧ step t = .next u ∧ u.rm = 0 :=
  ⟨⟨_, _, rfl, rfl, by decide, by decide⟩, ⟨_, _, rfl, rfl, by decide⟩⟩

theorem witness_DataWriteIsSeenByTheNextStep :
    let s := start 0xE7E8 0 100 7 []
    32768 ≤ (s.imem.read (addr15 s.pc)).toNat ∧ (s.imem.read (addr15 s.pc)).toNat / 8 % 2 = 1 ∧
    ∃ t u, step s = .next t ∧ step t = .next u ∧ u.rm = 8 :=
  ⟨by decide, by decide, _, _, rfl, rfl, by decide⟩

end Sys2Proof.Tests
end

/-! SUPPORT. The data write and the display expander: the lemmas that settle the statements on memory and the display
(spec/20_memory.md R34, R40, R41, R43). -/

namespace Sys2Proof.Machine

open Sys2Proof.Claims

/-! ### The display write expander, event by event -/

/-- The expander lists the events that the statements spell out. -/
theorem displayExpand_eq_sixteenEvents (a : Addr) (v : Word) : displayExpand a v = sixteenEvents a.toNat v := rfl

theorem displayExpand_getElem? (a : Addr) (v : Word) {i : Nat} (hi : i < 16) :
    (displayExpand a v)[i]? = some (pixelEvent a v i) := by
  simp [displayExpand, pixelsPerWord, hi]

theorem pixelEvent_x (a : Addr) (v : Word) (i : Nat) : (pixelEvent a v i).x = (a.toNat - 16384) % 32 * 16 + i := rfl

theorem pixelEvent_y (a : Addr) (v : Word) (i : Nat) : (pixelEvent a v i).y = (a.toNat - 16384) / 32 := rfl

theorem pixelEvent_inBitmap {a : Addr} (v : Word) {i : Nat} (ha : inDisplay a = true) (hi : i < 16) :
    (pixelEvent a v i).inBitmap := by
  obtain ⟨hlow, hhigh⟩ := (inDisplay_iff a).mp ha
  constructor
  · show (a.toNat - 16384) % 32 * 16 + i < 512
    omega
  · show (a.toNat - 16384) / 32 < 256
    omega

/-! ### The word and the bit position of a pixel -/

/-- The address of the display word that holds pixel `(x, y)` (R41). -/
def displayWordOf (x y : Nat) : Addr := BitVec.ofNat 15 (16384 + 32 * y + x / 16)

theorem displayWordOf_toNat {x y : Nat} (hx : x < 512) (hy : y < 256) :
    (displayWordOf x y).toNat = 16384 + 32 * y + x / 16 := by
  rw [displayWordOf, BitVec.toNat_ofNat]
  omega

theorem inDisplay_displayWordOf {x y : Nat} (hx : x < 512) (hy : y < 256) : inDisplay (displayWordOf x y) = true := by
  rw [inDisplay_iff, displayWordOf_toNat hx hy]
  omega

/-- A position of a display word stands for a pixel exactly when the word is the pixel's word and the position is the pixel's
column modulo 16: division with remainder by 32 words a row and by 16 pixels a word (R41). -/
theorem pixelEvent_at_iff {a : Addr} {i x y : Nat} (v : Word) (ha : inDisplay a = true) (hi : i < 16) (hx : x < 512)
    (hy : y < 256) :
    ((pixelEvent a v i).x = x ∧ (pixelEvent a v i).y = y) ↔ a = displayWordOf x y ∧ i = x % 16 := by
  obtain ⟨hlow, -⟩ := (inDisplay_iff a).mp ha
  rw [pixelEvent_x, pixelEvent_y, ← BitVec.toNat_inj, displayWordOf_toNat hx hy]
  omega

/-! ### The events of a data write -/

theorem memWrite_events_of_inDisplay {a : Addr} (h : inDisplay a = true) (v : Word) (s : State) :
    (memWrite a v s).events = s.events ++ displayExpand a v := by
  rw [memWrite_events, if_pos h]

theorem memWrite_events_of_not_inDisplay {a : Addr} (h : ¬ inDisplay a = true) (v : Word) (s : State) :
    (memWrite a v s).events = s.events := by
  rw [memWrite_events, if_neg h]

/-- The events of a data write in the arithmetic of the statements (R34). -/
theorem memWrite_events_eq_append (a : Addr) (v : Word) (s : State) :
    (memWrite a v s).events =
      s.events ++ if 16384 ≤ a.toNat ∧ a.toNat < 24576 then sixteenEvents a.toNat v else [] := by
  by_cases h : inDisplay a = true
  · rw [memWrite_events_of_inDisplay h, if_pos ((inDisplay_iff a).mp h), displayExpand_eq_sixteenEvents]
  · rw [memWrite_events_of_not_inDisplay h, if_neg (mt (inDisplay_iff a).mpr h), List.append_nil]

/-! ### The two callers of the data write (R34) -/

/-- The host's write to an address in range is the data write (R34, R179). -/
theorem writeData_toNat (a : Addr) (v : Word) (s : State) : writeData a.toNat v s = .ok (memWrite a v s) := by
  have ha : a.toNat < dmemWords := a.isLt
  rw [writeData, if_pos ha, BitVec.ofNat_toNat, BitVec.setWidth_eq]

/-- A compute instruction of any comp code is the shared body on its result (R84, R130). -/
theorem execWith_of_computeResult {c : Config} {d : Dest} {j : Jump} {s : State} {i : Instr} {r : Word}
    (h : ComputeResult c d j s i r) : execWith c i s = compute c r d j s := by
  cases h with
  | operation op => exact execWith_ofOp c op d j s
  | illegal comp => exact execWith_illegalCompCode c comp d j s

theorem storeTarget_eq_storeAddress (c : Config) (d : Dest) (r : Word) (s : State) :
    storeTarget c d r s = storeAddress c d r s := rfl

/-- A compute instruction that stores changes data memory and the event stream as the data write of its result does. -/
theorem Computed.stores {c : Config} {r : Word} {d : Dest} {j : Jump} {s t : State} (h : Computed c r d j s t)
    (hm : d.mem = true) :
    t.dmem = (memWrite (storeTarget c d r s) r s).dmem ∧ t.events = (memWrite (storeTarget c d r s) r s).events := by
  rw [storeTarget_eq_storeAddress, h.dmem, h.events, memWrite_dmem, memWrite_events, hm, Bool.true_and]
  exact ⟨rfl, rfl⟩

end Sys2Proof.Machine

namespace Sys2Proof.Proofs

open Sys2Proof.Machine Sys2Proof.Claims

/-- Settles O31: the host's write is `memWrite` by definition, and a compute instruction of any comp code runs the shared body
`compute`, whose effect on memory and events is that of `memWrite` at the store address. -/
theorem dataWriteStoresEverywhere : Obligations.DataWriteStoresEverywhere := by
  refine ⟨fun a v s => ?_, fun c d j s i r hr hm => ?_⟩
  · exact ⟨fun b => read_memWrite a b v s, memWrite_events_eq_append a v s, rfl, rfl, rfl, rfl, rfl, writeData_toNat a v s⟩
  · rw [execWith_of_computeResult hr]
    exact ⟨fun t ht => (compute_next ht).stores hm, fun hmask hwrap => compute_of_mask_of_wrap hmask hwrap r d j s⟩

/-- Settles O32: position `i` of the expansion is the event of bit position `i`. -/
theorem displayExpandEmitsThePixelsOfTheWord : Obligations.DisplayExpandEmitsThePixelsOfTheWord := by
  intro a v _ _
  exact ⟨displayExpand_length a v, fun i hi => displayExpand_getElem? a v hi⟩

/-- Settles O33: what a write appends is the expansion of its address and value alone, so it is the same the second time. -/
theorem everyDisplayWriteEmitsSixteenEvents : Obligations.EveryDisplayWriteEmitsSixteenEvents := by
  intro a v s
  constructor
  · intro hlow hhigh
    have ha : inDisplay a = true := (inDisplay_iff a).mpr ⟨hlow, hhigh⟩
    have once := memWrite_events_of_inDisplay ha v
    refine ⟨displayExpand a v, once s, displayExpand_length a v, fun i hi => ?_, ?_⟩
    · rw [displayExpand_getElem? a v hi]; rfl
    · rw [once, once]
  · intro hout
    exact memWrite_events_of_not_inDisplay (by rw [inDisplay_iff]; omega) v s

/-- Settles O34: the pixel's word is `displayWordOf x y` and its position is `x % 16`, by `pixelEvent_at_iff` both ways. -/
theorem everyPixelBelongsToOneDisplayBit : Obligations.EveryPixelBelongsToOneDisplayBit := by
  refine ⟨fun a v i ha hi => pixelEvent_inBitmap v ha hi, fun x y hx hy => ?_⟩
  have hword := inDisplay_displayWordOf hx hy
  have hbit : x % 16 < 16 := Nat.mod_lt x (by decide)
  refine ⟨displayWordOf x y, x % 16, ⟨hword, hbit, fun v => ?_⟩, displayWordOf_toNat hx hy, fun b k v hb hk hbx hby => ?_⟩
  · exact (pixelEvent_at_iff v hword hbit hx hy).mpr ⟨rfl, rfl⟩
  · exact (pixelEvent_at_iff v hb hk hx hy).mp ⟨hbx, hby⟩

end Sys2Proof.Proofs

/-! SUPPORT. The two instruction classes: the lemmas that settle the statement on bit 15 (spec/30_encoding.md R60, R61). -/

namespace Sys2Proof.Machine

/-! ### The class of a word -/

theorem isCompute_eq_true_iff (w : Word) : isCompute w = true ↔ 32768 ≤ w.toNat := by
  rw [isCompute, getLsbD_15_eq, decide_eq_true_eq]

theorem isCompute_eq_false_iff (w : Word) : isCompute w = false ↔ w.toNat < 32768 := by
  rw [← Bool.not_eq_true, isCompute_eq_true_iff, Nat.not_le]

theorem literalField_toNat (w : Word) : (literalField w).toNat = w.toNat % 32768 := by
  simp [literalField]

/-! ### What the decoder makes of each class -/

theorem decodeWith_of_not_isCompute (c : Config) {w : Word} (h : isCompute w = false) :
    decodeWith c w = .address (literalField w) := by
  simp [decodeWith, h]

/-- A compute word decodes to the operation found under its comp code, or to an illegal code when there is none (R71). -/
theorem decodeWith_of_isCompute (c : Config) {w : Word} (h : isCompute w = true) :
    (∃ op, c.opOfCode (compField w) = some op ∧
      decodeWith c w = Instr.ofOp op (Dest.ofCode (destField w)) (Jump.ofCode (jumpField w))) ∨
    (c.opOfCode (compField w) = none ∧
      decodeWith c w = .illegalCompCode (compField w) (Dest.ofCode (destField w)) (Jump.ofCode (jumpField w))) := by
  cases hop : c.opOfCode (compField w) with
  | some op => exact .inl ⟨op, rfl, by simp [decodeWith, h, hop]⟩
  | none => exact .inr ⟨rfl, by simp [decodeWith, h, hop]⟩

theorem ofOp_ne_address (op : AluOp) (dest : Dest) (jump : Jump) (v : Addr) :
    Instr.ofOp op dest jump ≠ .address v := by
  intro h
  have hshape := congrArg Instr.shape h
  rw [Instr.shape_ofOp, Instr.shape_address] at hshape
  cases hshape

theorem decodeWith_ne_address_of_isCompute (c : Config) {w : Word} (h : isCompute w = true) (v : Addr) :
    decodeWith c w ≠ .address v := by
  obtain ⟨op, -, hw⟩ | ⟨-, hw⟩ := decodeWith_of_isCompute c h
  · rw [hw]
    exact ofOp_ne_address op _ _ v
  · rw [hw]
    exact nofun

/-- The address instruction leaves its literal in `ra`, under any parameters (R90). -/
theorem execWith_address_ra {c : Config} {v : Addr} {s t : State} (h : execWith c (.address v) s = .next t) :
    t.ra = zext16 v := by
  have ht : t = (s.setRa (zext16 v)).setPc (zext16 (addr15 (s.pc + 1))) := loadAddress_next h
  rw [ht, State.setPc_ra, State.setRa_ra]

end Sys2Proof.Machine

namespace Sys2Proof.Proofs

open Sys2Proof.Machine Sys2Proof.Claims

/-- Settles O5: `isCompute` is the comparison with 0x8000, and below it the low 15 bits are the whole word. -/
theorem topBitSelectsTheInstructionClass : Obligations.TopBitSelectsTheInstructionClass := by
  intro c w
  constructor
  · intro hlow
    have hliteral : (literalField w).toNat = w.toNat := by
      rw [literalField_toNat, Nat.mod_eq_of_lt hlow]
    refine ⟨literalField w, decodeWith_of_not_isCompute c ((isCompute_eq_false_iff w).mpr hlow), hliteral, ?_⟩
    intro s t ht
    rw [execWith_address_ra ht, zext16_toNat, hliteral]
  · intro hhigh
    exact decodeWith_ne_address_of_isCompute c ((isCompute_eq_true_iff w).mpr hhigh)

end Sys2Proof.Proofs

/-! SUPPORT. The destination multiplexer: the lemmas that settle the statement on the one value that every enabled destination
receives (spec/43_compute_dest.md R151). -/

namespace Sys2Proof.Machine

open Sys2Proof.Claims

/-! ### What each enabled destination holds after a compute instruction -/

theorem Computed.ra_of_enabled {c : Config} {r : Word} {d : Dest} {j : Jump} {s t : State} (h : Computed c r d j s t)
    (ha : d.ra = true) : t.ra = r := by
  rw [h.ra, if_pos ha]

theorem Computed.rd_of_enabled {c : Config} {r : Word} {d : Dest} {j : Jump} {s t : State} (h : Computed c r d j s t)
    (hd : d.rd = true) : t.rd = r := by
  rw [h.rd, if_pos hd]

theorem Computed.read_storeTarget {c : Config} {r : Word} {d : Dest} {j : Jump} {s t : State} (h : Computed c r d j s t)
    (hm : d.mem = true) : t.dmem.read (storeTarget c d r s) = r := by
  obtain ⟨hdmem, -⟩ := h.stores hm
  rw [hdmem, read_memWrite, if_pos rfl]

/-- Under any parameters, every enabled destination of a compute instruction of any comp code receives its result (R151). -/
theorem storesOneValue_of_computeResult {c : Config} {d : Dest} {j : Jump} {s : State} {i : Instr} {r : Word}
    (hr : ComputeResult c d j s i r) : StoresOneValue c i d r s := by
  intro t ht
  rw [execWith_of_computeResult hr] at ht
  have h : Computed c r d j s t := compute_next ht
  exact ⟨h.ra_of_enabled, h.rd_of_enabled, h.read_storeTarget⟩

end Sys2Proof.Machine

namespace Sys2Proof.Proofs

open Sys2Proof.Machine Sys2Proof.Claims

/-- Settles O22: the ALU's result on the registers before the instruction, and the sentinel of an illegal code, are each the
result of a compute instruction, which all its enabled destinations receive. -/
theorem oneValueForAllDestinations : Obligations.OneValueForAllDestinations := by
  intro c d j s
  exact ⟨fun op => storesOneValue_of_computeResult (.operation op),
    fun comp => storesOneValue_of_computeResult (.illegal comp)⟩

end Sys2Proof.Proofs

/-! SUPPORT. Reset and the load errors: the lemmas that settle the statements on `reset` and on a load that is turned away
(spec/70_reset_and_hazards.md R213, R215, R218; spec/30_encoding.md R76). -/

namespace Sys2Proof.Machine

open Sys2Proof.Claims

/-! ### Reset, field by field (R212, R213) -/

@[simp] theorem resetMachine_pc (s : State) : (resetMachine s).pc = 0 := rfl

@[simp] theorem resetMachine_ra (s : State) : (resetMachine s).ra = 0 := rfl

@[simp] theorem resetMachine_rd (s : State) : (resetMachine s).rd = 0 := rfl

@[simp] theorem resetMachine_rm (s : State) : (resetMachine s).rm = 0 := rfl

@[simp] theorem resetMachine_imem (s : State) : (resetMachine s).imem = s.imem := rfl

@[simp] theorem resetMachine_dmem (s : State) : (resetMachine s).dmem = [] := rfl

@[simp] theorem resetMachine_resetMachine (s : State) : resetMachine (resetMachine s) = resetMachine s := rfl

/-! ### The program text format: what the parser turns away (R76) -/

theorem bitOfChar_eq_none_iff (ch : Char) : bitOfChar ch = none ↔ ¬ (ch = '0' ∨ ch = '1') := by
  unfold bitOfChar
  split
  next h0 => simp [h0]
  next h0 =>
    split
    next h1 => simp [h1]
    next h1 => simp [h0, h1]

theorem parseBits_cons_of_none {ch : Char} (h : bitOfChar ch = none) (rest : List Char) (w : Word) :
    parseBits (ch :: rest) w = none := by
  simp only [parseBits, h]

theorem parseBits_cons_of_some {ch : Char} {b : Bool} (h : bitOfChar ch = some b) (rest : List Char) (w : Word) :
    parseBits (ch :: rest) w = parseBits rest (w <<< 1 ||| (BitVec.ofBool b).setWidth 16) := by
  simp only [parseBits, h]

/-- A run of characters has no word exactly when one of them is not binary, whatever the bits read before it. -/
theorem parseBits_eq_none_iff (chars : List Char) (w : Word) :
    parseBits chars w = none ↔ ∃ ch ∈ chars, ¬ (ch = '0' ∨ ch = '1') := by
  induction chars generalizing w with
  | nil => simp [parseBits]
  | cons ch rest ih =>
    rw [List.exists_mem_cons_iff, ← bitOfChar_eq_none_iff]
    cases hbit : bitOfChar ch with
    | none => simp [parseBits_cons_of_none hbit]
    | some b => simp [parseBits_cons_of_some hbit, ih]

/-- A line has no word exactly when it is not 16 binary characters. -/
theorem parseLine_eq_none_iff (line : List Char) : parseLine line = none ↔ ¬ WellFormedLine line := by
  unfold parseLine WellFormedLine
  split
  next hlen => simp [parseBits_eq_none_iff, hlen]
  next hlen => simp [hlen]

theorem parseProgram_cons_of_none {line : List Char} (h : parseLine line = none) (rest : List (List Char)) :
    parseProgram (line :: rest) = .error .malformedLine := by
  simp only [parseProgram, h]

theorem parseProgram_cons_of_error {rest : List (List Char)} (h : parseProgram rest = .error .malformedLine)
    (line : List Char) : parseProgram (line :: rest) = .error .malformedLine := by
  cases hline : parseLine line with
  | none => exact parseProgram_cons_of_none hline rest
  | some w => simp only [parseProgram, hline, h]

/-- One malformed line anywhere turns the whole text away: it is the first line, or it is in the rest (R215). -/
theorem parseProgram_of_malformed {lines : List (List Char)} (h : ∃ line ∈ lines, ¬ WellFormedLine line) :
    parseProgram lines = .error .malformedLine := by
  induction lines with
  | nil => simp at h
  | cons line rest ih =>
    rw [List.exists_mem_cons_iff] at h
    rcases h with hfirst | hrest
    · exact parseProgram_cons_of_none ((parseLine_eq_none_iff line).mpr hfirst) rest
    · exact parseProgram_cons_of_error (ih hrest) line

/-! ### The loads that are turned away (R215) -/

theorem loadProgram_of_too_long {words : List Word} (h : 32768 < words.length) (s : State) :
    loadProgram words s = .error .programTooLong :=
  if_pos h

theorem loadText_of_malformed {lines : List (List Char)} (h : ∃ line ∈ lines, ¬ WellFormedLine line) (s : State) :
    loadText lines s = .error .malformedLine := by
  simp only [loadText, parseProgram_of_malformed h]

/-- A host call that is turned away is answered with its error and leaves the state as it was (R204, R215). -/
theorem rejected_of_replyOf_error {c : Config} {op : HostOp} {s : State} {result : Except HostError State}
    {e : HostError} (hcall : hostCall c op s = replyOf result) (herror : result = .error e) :
    hostCall c op s = .rejected e ∧ stateAfter s (hostCall c op s) = some s := by
  rw [hcall, herror]
  exact ⟨rfl, rfl⟩

end Sys2Proof.Machine

namespace Sys2Proof.Proofs

open Sys2Proof.Machine Sys2Proof.Claims

/-- Settles O55: each load answers with its error before it touches the state, the program by its length and the text by induction
on its lines, and a call that is turned away leaves the state as it was. -/
theorem loadErrorsChangeNothing : Obligations.LoadErrorsChangeNothing := by
  intro c s
  constructor
  · intro words hlong
    exact rejected_of_replyOf_error rfl (loadProgram_of_too_long hlong s)
  · intro lines hmalformed
    exact rejected_of_replyOf_error rfl (loadText_of_malformed hmalformed s)

/-- Settles O52: a second `reset` finds the state that the first one left, and every word of the emptied data memory reads 0. -/
theorem resetZeroesDataAndKeepsTheProgram : Obligations.ResetZeroesDataAndKeepsTheProgram := by
  intro s
  have hread : ∀ a : Addr, (resetMachine s).dmem.read a = 0 := fun a => by rw [resetMachine_dmem, Memory.read_nil]
  rw [resetMachine_resetMachine]
  exact ⟨hread, resetMachine_imem s, resetMachine_pc s, resetMachine_ra s, resetMachine_rd s, resetMachine_rm s,
    rfl, rfl, rfl, rfl, rfl, rfl⟩

end Sys2Proof.Proofs

/-! SUPPORT. What a step and a host call can do to each part of the state: the lemmas that settle the statements on the
invariant (spec/10_state.md R25), on instruction memory (R17) and on the event stream (R19, R43). -/

namespace Sys2Proof.Machine

open Sys2Proof.Claims

/-! ### What a step does to data memory and the events together, to instruction memory and to `pc` -/

/-- Data memory and the event stream both as they were, or both as one data write leaves them. -/
def DataStep (s t : State) : Prop :=
  (t.dmem = s.dmem ∧ t.events = s.events) ∨
  ∃ a v, t.dmem = (memWrite a v s).dmem ∧ t.events = (memWrite a v s).events

theorem Computed.dmem_of_not_stored {c : Config} {r : Word} {d : Dest} {j : Jump} {s t : State} (h : Computed c r d j s t)
    (hm : d.mem = false) : t.dmem = s.dmem := by
  rw [h.dmem, hm]; rfl

theorem Computed.events_of_not_stored {c : Config} {r : Word} {d : Dest} {j : Jump} {s t : State}
    (h : Computed c r d j s t) (hm : d.mem = false) : t.events = s.events := by
  rw [h.events, hm]; rfl

theorem Computed.dataStep {c : Config} {r : Word} {d : Dest} {j : Jump} {s t : State} (h : Computed c r d j s t) :
    DataStep s t := by
  cases hm : d.mem with
  | false => exact .inl ⟨h.dmem_of_not_stored hm, h.events_of_not_stored hm⟩
  | true => exact .inr ⟨_, _, h.stores hm⟩

theorem stepWith_dataStep {c : Config} {s t : State} (h : stepWith c s = .next t) : DataStep s t := by
  obtain ⟨-, rfl⟩ | ⟨-, hc⟩ := stepWith_next h
  · exact .inl ⟨rfl, rfl⟩
  · exact hc.dataStep

theorem stepWith_imem {c : Config} {s t : State} (h : stepWith c s = .next t) : t.imem = s.imem := by
  obtain ⟨-, rfl⟩ | ⟨-, hc⟩ := stepWith_next h
  · rfl
  · exact hc.imem

theorem zext16_lt (a : Addr) : (zext16 a).toNat < 32768 := by
  rw [zext16_toNat]
  exact a.isLt

theorem stepWith_pc_lt {c : Config} {s t : State} (h : stepWith c s = .next t) : t.pc.toNat < 32768 := by
  obtain ⟨-, rfl⟩ | ⟨-, hc⟩ := stepWith_next h
  · exact zext16_lt _
  · rw [hc.pc]
    exact zext16_lt _

/-! ### One rule for every invariant of host calls -/

/-- A property that steps, `pc` writes, data writes, a reset and the loads keep is kept by every host call. Resets and loads matter
only where the call is one. -/
theorem hostCall_keeps {P : State → Prop} {c : Config} {op : HostOp}
    (hstep : ∀ s t, P s → stepWith c s = .next t → P t)
    (hpc : ∀ s a, P s → P (s.setPc (zext16 (addr15 a))))
    (hwrite : ∀ s a v, P s → P (memWrite a v s))
    (hreset : op = .reset → ∀ s, P s → P (resetMachine s))
    (hload : ((∃ ws, op = .loadProgram ws) ∨ ∃ ls, op = .loadText ls) → ∀ s (words : List Word),
      words.length ≤ 32768 → P s → P { s with imem := Memory.ofWords 0 words })
    {s t : State} (hs : P s) (h : stateAfter s (hostCall c op s) = some t) : P t := by
  obtain rfl | ⟨n, hrun⟩ | ⟨a, rfl⟩ | ⟨hop, rfl⟩ | ⟨a, v, rfl⟩ | ⟨words, hop, hlen, rfl⟩ := hostCall_effect h
  · exact hs
  · exact runWith_induction hstep n s t hs hrun
  · exact hpc s a hs
  · exact hreset hop s hs
  · exact hwrite s a v hs
  · exact hload hop s words hlen hs

/-- A property that every call of a session keeps holds after the session. -/
theorem session_keeps {P : State → Prop} {c : Config} {ops : List HostOp}
    (hcall : ∀ op ∈ ops, ∀ s t, P s → stateAfter s (hostCall c op s) = some t → P t) {s t : State} (hs : P s)
    (h : session c ops s = some t) : P t := by
  induction ops generalizing s with
  | nil => cases h; exact hs
  | cons op rest ih =>
    simp only [session] at h
    split at h
    · cases h
    next u hu =>
      exact ih (fun o ho => hcall o (List.mem_cons_of_mem op ho)) (hcall op List.mem_cons_self s u hs hu) h

/-! ### The invariant of reachable states (R25) -/

theorem eventsInBitmap_memWrite {s : State} (h : ∀ e ∈ s.events, e.inBitmap) (a : Addr) (v : Word) :
    ∀ e ∈ (memWrite a v s).events, e.inBitmap := by
  intro e he
  by_cases ha : inDisplay a = true
  · rw [memWrite_events_of_inDisplay ha, List.mem_append, mem_displayExpand] at he
    obtain hold | ⟨i, hi, rfl⟩ := he
    · exact h e hold
    · exact pixelEvent_inBitmap v ha hi
  · rw [memWrite_events_of_not_inDisplay ha] at he
    exact h e he

theorem State.Inv.memWrite {s : State} (h : s.Inv) (a : Addr) (v : Word) : (memWrite a v s).Inv where
  pcInRange := h.pcInRange
  imemCanonical := h.imemCanonical
  dmemCanonical := Memory.wf_write h.dmemCanonical a v
  eventsInBitmap := eventsInBitmap_memWrite h.eventsInBitmap a v

/-- The invariant asks nothing of the registers but a `pc` below 32768. -/
theorem State.Inv.of_dataStep {s t : State} (h : s.Inv) (hpc : t.pc.toNat < 32768) (himem : t.imem = s.imem)
    (hdata : DataStep s t) : t.Inv := by
  have himem' : t.imem.wf = true := himem ▸ h.imemCanonical
  obtain ⟨hd, he⟩ | ⟨a, v, hd, he⟩ := hdata
  · exact ⟨hpc, himem', hd ▸ h.dmemCanonical, he ▸ h.eventsInBitmap⟩
  · exact ⟨hpc, himem', hd ▸ (h.memWrite a v).dmemCanonical, he ▸ (h.memWrite a v).eventsInBitmap⟩

theorem State.Inv.stepWith {c : Config} {s t : State} (h : s.Inv) (hst : stepWith c s = .next t) : t.Inv :=
  h.of_dataStep (stepWith_pc_lt hst) (stepWith_imem hst) (stepWith_dataStep hst)

theorem State.Inv.reset : State.reset.Inv where
  pcInRange := by decide
  imemCanonical := Memory.wf_nil
  dmemCanonical := Memory.wf_nil
  eventsInBitmap := nofun

theorem State.Inv.hostCall {c : Config} {op : HostOp} {s t : State} (h : s.Inv)
    (hst : stateAfter s (hostCall c op s) = some t) : t.Inv := by
  refine hostCall_keeps (P := State.Inv) (fun _ _ hs => hs.stepWith) ?_ (fun _ a v hs => hs.memWrite a v) ?_ ?_ h hst
  case refine_1 =>
    intro s a hs
    exact ⟨zext16_lt _, hs.imemCanonical, hs.dmemCanonical, hs.eventsInBitmap⟩
  case refine_2 =>
    intro _ s hs
    exact ⟨State.Inv.reset.pcInRange, hs.imemCanonical, Memory.wf_nil, hs.eventsInBitmap⟩
  case refine_3 =>
    intro _ s words hlen hs
    exact ⟨hs.pcInRange, Memory.wf_ofWords hlen, hs.dmemCanonical, hs.eventsInBitmap⟩

/-! ### The event stream (R19, R43) -/

/-- The events of `t` are those of `s` and then a multiple of 16 more. -/
def GrowsBySixteens (s t : State) : Prop :=
  ∃ new : List PixelEvent, t.events = s.events ++ new ∧ new.length % 16 = 0

theorem GrowsBySixteens.of_events_eq {s t u : State} (h : GrowsBySixteens s t) (he : u.events = t.events) :
    GrowsBySixteens s u := by
  obtain ⟨new, ht, hlen⟩ := h
  exact ⟨new, he.trans ht, hlen⟩

theorem GrowsBySixteens.memWrite {s t : State} (h : GrowsBySixteens s t) (a : Addr) (v : Word) :
    GrowsBySixteens s (memWrite a v t) := by
  by_cases ha : inDisplay a = true
  · obtain ⟨new, ht, hlen⟩ := h
    refine ⟨new ++ displayExpand a v, ?_, ?_⟩
    · rw [memWrite_events_of_inDisplay ha, ht, List.append_assoc]
    · rw [List.length_append, displayExpand_length]
      omega
  · exact h.of_events_eq (memWrite_events_of_not_inDisplay ha v t)

theorem GrowsBySixteens.dataStep {s t u : State} (h : GrowsBySixteens s t) (hdata : DataStep t u) : GrowsBySixteens s u := by
  obtain ⟨-, he⟩ | ⟨a, v, -, he⟩ := hdata
  · exact h.of_events_eq he
  · exact (h.memWrite a v).of_events_eq he

theorem GrowsBySixteens.hostCall {c : Config} {op : HostOp} {s t u : State} (h : GrowsBySixteens s t)
    (hst : stateAfter t (hostCall c op t) = some u) : GrowsBySixteens s u :=
  hostCall_keeps (P := GrowsBySixteens s) (fun _ _ hs hstep => hs.dataStep (stepWith_dataStep hstep))
    (fun _ _ hs => hs.of_events_eq rfl) (fun _ a v hs => hs.memWrite a v) (fun _ _ hs => hs.of_events_eq rfl)
    (fun _ _ _ _ hs => hs.of_events_eq rfl) h hst

end Sys2Proof.Machine

namespace Sys2Proof.Proofs

open Sys2Proof.Machine Sys2Proof.Claims

/-- Settles O40: a step writes `pc` with a 15-bit address and keeps instruction memory, and all it can do to data memory and the
events is one data write, which keeps the canonical form and appends events of a display word. -/
theorem everyStepKeepsTheInvariant : Obligations.EveryStepKeepsTheInvariant := by
  refine ⟨fun s t hs ht => ?_, fun c s t hs ht => hs.stepWith ht⟩
  rw [step_eq_stepWith] at ht
  exact hs.stepWith ht

/-- Settles O42: the invariant is kept by each of the things a host call can do. -/
theorem everyHostCallKeepsTheInvariant : Obligations.EveryHostCallKeepsTheInvariant :=
  fun _ _ _ _ hs ht => hs.hostCall ht

/-- Settles O41: empty memories are canonical, and there is no event yet. -/
theorem resetStateMeetsTheInvariant : Obligations.ResetStateMeetsTheInvariant :=
  State.Inv.reset

/-- Settles O43, by induction over the session. -/
theorem everyReachableStateMeetsTheInvariant : Obligations.EveryReachableStateMeetsTheInvariant :=
  fun _ _ h => reachable_induction State.Inv.reset (fun _ _ _ hs => hs.hostCall) h

/-- Settles O44: keeping the image that stood at the start is an invariant of steps and of every call that is no load. -/
theorem onlyLoadsWriteInstructionMemory : Obligations.OnlyLoadsWriteInstructionMemory := by
  have hstep : ∀ (c : Config) (s t u : State), t.imem = s.imem → stepWith c t = .next u → u.imem = s.imem :=
    fun c s t u ht hu => (stepWith_imem hu).trans ht
  constructor
  · intro c n s t hrun
    exact runWith_induction (P := fun u => u.imem = s.imem) (hstep c s) n s t rfl hrun
  · intro c op s t hprogram htext hcall
    refine hostCall_keeps (P := fun u => u.imem = s.imem) (hstep c s) (fun _ _ hu => hu) (fun _ _ _ hu => hu)
      (fun _ _ hu => hu) ?_ rfl hcall
    rintro (⟨words, hop⟩ | ⟨lines, hop⟩)
    · exact absurd hop (hprogram words)
    · exact absurd hop (htext lines)

/-- Settles O46, by induction over the session. -/
theorem eventStreamOnlyGrowsBySixteens : Obligations.EventStreamOnlyGrowsBySixteens := by
  intro c ops s t hsession
  have hstart : GrowsBySixteens s s := ⟨[], (List.append_nil _).symm, rfl⟩
  exact session_induction (P := GrowsBySixteens s) (fun _ _ _ hu => hu.hostCall) ops s t hstart hsession

end Sys2Proof.Proofs

/-! SUPPORT. The sink's picture: the lemmas that settle the statements on its agreement with data memory
(spec/20_memory.md R45, R47). -/

namespace Sys2Proof.Machine

/-! ### What a run of events does to one pixel -/

/-- What an event leaves pixel `(x, y)` at. -/
def paint (x y : Nat) (on : Bool) (e : PixelEvent) : Bool :=
  if e.x = x ∧ e.y = y then e.on else on

theorem picture_append (old new : List PixelEvent) (x y : Nat) :
    picture (old ++ new) x y = new.foldl (paint x y) (picture old x y) :=
  List.foldl_append

theorem foldl_paint_of_untouched {new : List PixelEvent} {x y : Nat} (h : ∀ e ∈ new, ¬ (e.x = x ∧ e.y = y)) (on : Bool) :
    new.foldl (paint x y) on = on := by
  induction new with
  | nil => rfl
  | cons e rest ih =>
    rw [List.foldl_cons, paint, if_neg (h e List.mem_cons_self)]
    exact ih fun e' he' => h e' (List.mem_cons_of_mem e he')

/-- When the events of a pixel all say `on` and there is one, the pixel ends at `on`, whatever it was before. -/
theorem foldl_paint_of_touched {new : List PixelEvent} {x y : Nat} {on : Bool}
    (hall : ∀ e ∈ new, e.x = x ∧ e.y = y → e.on = on) (hone : ∃ e ∈ new, e.x = x ∧ e.y = y) (before : Bool) :
    new.foldl (paint x y) before = on := by
  induction new generalizing before with
  | nil => simp at hone
  | cons e rest ih =>
    have hrest : ∀ e' ∈ rest, e'.x = x ∧ e'.y = y → e'.on = on := fun e' he' => hall e' (List.mem_cons_of_mem e he')
    rw [List.foldl_cons]
    by_cases hlater : ∃ e' ∈ rest, e'.x = x ∧ e'.y = y
    · exact ih hrest hlater _
    · have hat : e.x = x ∧ e.y = y := ((List.exists_mem_cons_iff ..).mp hone).resolve_right hlater
      rw [foldl_paint_of_untouched fun e' he' hat' => hlater ⟨e', he', hat'⟩, paint, if_pos hat]
      exact hall e List.mem_cons_self hat

/-! ### What a data write does to one pixel, in the picture and in data memory -/

/-- The expansion of a display word sets the pixels of that word, each to its bit, and no other (R40, R41). -/
theorem foldl_paint_displayExpand {a : Addr} (ha : inDisplay a = true) (v : Word) {x y : Nat} (hx : x < 512) (hy : y < 256)
    (on : Bool) :
    (displayExpand a v).foldl (paint x y) on = if displayWordOf x y = a then v.getLsbD (15 - x % 16) else on := by
  split
  next hword =>
    apply foldl_paint_of_touched
    · intro e he hat
      obtain ⟨i, hi, rfl⟩ := mem_displayExpand.mp he
      obtain ⟨-, rfl⟩ := (pixelEvent_at_iff v ha hi hx hy).mp hat
      rfl
    · have hbit : x % 16 < 16 := Nat.mod_lt x (by decide)
      exact ⟨pixelEvent a v (x % 16), mem_displayExpand.mpr ⟨_, hbit, rfl⟩,
        (pixelEvent_at_iff v ha hbit hx hy).mpr ⟨hword.symm, rfl⟩⟩
  next hword =>
    apply foldl_paint_of_untouched
    intro e he hat
    obtain ⟨i, hi, rfl⟩ := mem_displayExpand.mp he
    exact hword ((pixelEvent_at_iff v ha hi hx hy).mp hat).1.symm

theorem picture_memWrite (a : Addr) (v : Word) (s : State) {x y : Nat} (hx : x < 512) (hy : y < 256) :
    picture (memWrite a v s).events x y
      = if displayWordOf x y = a then v.getLsbD (15 - x % 16) else picture s.events x y := by
  by_cases ha : inDisplay a = true
  · rw [memWrite_events_of_inDisplay ha, picture_append, foldl_paint_displayExpand ha v hx hy]
  · have hword : displayWordOf x y ≠ a := fun h => ha (h ▸ inDisplay_displayWordOf hx hy)
    rw [memWrite_events_of_not_inDisplay ha, if_neg hword]

theorem displayBit_eq (m : Memory) (x y : Nat) : displayBit m x y = (m.read (displayWordOf x y)).getLsbD (15 - x % 16) := rfl

theorem displayBit_memWrite (a : Addr) (v : Word) (s : State) (x y : Nat) :
    displayBit (memWrite a v s).dmem x y
      = if displayWordOf x y = a then v.getLsbD (15 - x % 16) else displayBit s.dmem x y := by
  rw [displayBit_eq, displayBit_eq, read_memWrite]
  split <;> rfl

/-! ### The agreement is kept by everything but a reset -/

theorem pictureAgrees_reset : PictureAgrees State.reset := by
  intro x y _ _
  rw [displayBit_eq, State.reset_dmem, Memory.read_nil]
  exact BitVec.getLsbD_zero.symm

theorem PictureAgrees.memWrite {s : State} (h : PictureAgrees s) (a : Addr) (v : Word) : PictureAgrees (memWrite a v s) := by
  intro x y hx hy
  rw [picture_memWrite a v s hx hy, displayBit_memWrite, h x y hx hy]

theorem PictureAgrees.of_eq {s t : State} (h : PictureAgrees s) (hd : t.dmem = s.dmem) (he : t.events = s.events) :
    PictureAgrees t := by
  rw [PictureAgrees, hd, he]
  exact h

theorem PictureAgrees.dataStep {s t : State} (h : PictureAgrees s) (hdata : DataStep s t) : PictureAgrees t := by
  obtain ⟨hd, he⟩ | ⟨a, v, hd, he⟩ := hdata
  · exact h.of_eq hd he
  · exact (h.memWrite a v).of_eq hd he

theorem PictureAgrees.hostCall {c : Config} {op : HostOp} (hop : op ≠ .reset) {s t : State} (h : PictureAgrees s)
    (hst : stateAfter s (hostCall c op s) = some t) : PictureAgrees t :=
  hostCall_keeps (P := PictureAgrees) (fun _ _ hs hstep => hs.dataStep (stepWith_dataStep hstep)) (fun _ _ hs => hs)
    (fun _ a v hs => hs.memWrite a v) (fun hreset => absurd hreset hop) (fun _ _ _ _ hs => hs) h hst

end Sys2Proof.Machine

namespace Sys2Proof.Proofs

open Sys2Proof.Machine Sys2Proof.Claims

/-- Settles O37, by induction over the session: a data write sets the same pixels in the picture and in data memory, and nothing else
that a call other than `reset` can do touches either. -/
theorem pictureFollowsDataMemoryUntilReset : Obligations.PictureFollowsDataMemoryUntilReset := by
  intro c ops s t hops hs hsession
  refine session_keeps (P := PictureAgrees) (fun op hop _ _ hu => hu.hostCall ?_) hs hsession
  rintro rfl
  exact hops hop

/-- Settles O38: both pictures are blank. -/
theorem pictureAgreesAtCreation : Obligations.PictureAgreesAtCreation :=
  pictureAgrees_reset

/-- Settles O39: after a write of 0xFFFF at 0x4000 and a reset, pixel (0, 0) is on in the picture and its bit in data memory is 0. -/
theorem resetLeavesTheIssuedPictureBehind : Obligations.ResetLeavesTheIssuedPictureBehind := by
  refine ⟨fun s => ⟨rfl, resetMachine_resetMachine s⟩, pictureAgrees_reset.memWrite _ _, fun hagrees => ?_⟩
  have hpixel := hagrees 0 0 (by decide) (by decide)
  exact absurd hpixel (by decide)

end Sys2Proof.Proofs

/-! SUPPORT. The decoder and the encoder: the lemmas that settle the statements on their agreement and on the fields of a word
(spec/30_encoding.md R60 to R72). -/

namespace Sys2Proof

open Sys2Proof.Machine

/-- The three forms of instruction: the address instruction, the compute instruction of an operation, and an illegal code (R61, R62). -/
theorem Instr.exists_form (i : Instr) :
    (∃ value, i = .address value) ∨ (∃ op dest jump, i = Instr.ofOp op dest jump) ∨
    ∃ comp dest jump, i = .illegalCompCode comp dest jump := by
  cases hi : i.shape with
  | address value => exact .inl ⟨value, Instr.shape_injective hi⟩
  | compute op dest jump =>
    exact .inr (.inl ⟨op, dest, jump, Instr.shape_injective (hi.trans (Instr.shape_ofOp op dest jump).symm)⟩)
  | illegal comp dest jump => exact .inr (.inr ⟨comp, dest, jump, Instr.shape_injective hi⟩)

/-! ### The encoding of each form -/

theorem encodeWith_address (c : Config) (value : Addr) : encodeWith c (.address value) = value.setWidth 16 := rfl

theorem encodeWith_ofOp (c : Config) (op : AluOp) (dest : Dest) (jump : Jump) :
    encodeWith c (Instr.ofOp op dest jump) = packCompute (c.compCode op) dest jump := by
  simp only [encodeWith, Instr.shape_ofOp]

theorem encodeWith_illegalCompCode (c : Config) (comp : BitVec 7) (dest : Dest) (jump : Jump) :
    encodeWith c (.illegalCompCode comp dest jump) = packCompute comp dest jump := rfl

/-! ### What a packed word decodes to -/

theorem decodeWith_packCompute_of_some {c : Config} {comp : BitVec 7} {op : AluOp} (h : c.opOfCode comp = some op)
    (dest : Dest) (jump : Jump) : decodeWith c (packCompute comp dest jump) = Instr.ofOp op dest jump := by
  simp only [decodeWith, isCompute_packCompute, compField_packCompute, destField_packCompute, jumpField_packCompute,
    Dest.ofCode_code, Jump.ofCode_code, h, if_true]

theorem decodeWith_packCompute_of_none {c : Config} {comp : BitVec 7} (h : c.opOfCode comp = none) (dest : Dest)
    (jump : Jump) : decodeWith c (packCompute comp dest jump) = .illegalCompCode comp dest jump := by
  simp only [decodeWith, isCompute_packCompute, compField_packCompute, destField_packCompute, jumpField_packCompute,
    Dest.ofCode_code, Jump.ofCode_code, h, if_true]

theorem decodeWith_encodeWith {c : Config} (hc : c.CodesInjective) {i : Instr} (hi : i.wellFormedIn c = true) :
    decodeWith c (encodeWith c i) = i := by
  obtain ⟨value, rfl⟩ | ⟨op, dest, jump, rfl⟩ | ⟨comp, dest, jump, rfl⟩ := i.exists_form
  · rw [encodeWith_address, decodeWith_of_not_isCompute c (isCompute_literal value), literalField_literal]
  · rw [Instr.wellFormedIn_ofOp] at hi
    rw [encodeWith_ofOp, decodeWith_packCompute_of_some (Config.opOfCode_compCode hc hi)]
  · rw [encodeWith_illegalCompCode, decodeWith_packCompute_of_none (Option.isNone_iff_eq_none.mp hi)]

/-! ### What encoding makes of a decoded word -/

theorem encodeWith_decodeWith_of_isCompute (c : Config) {w : Word} (h : isCompute w = true) :
    encodeWith c (decodeWith c w) = w ||| 0x6000 := by
  obtain ⟨op, hop, hw⟩ | ⟨-, hw⟩ := decodeWith_of_isCompute c h
  · rw [hw, encodeWith_ofOp, (Config.compCode_of_opOfCode hop).2, packCompute_fields w h]
  · rw [hw, encodeWith_illegalCompCode, packCompute_fields w h]

theorem encodeWith_decodeWith_of_not_isCompute (c : Config) {w : Word} (h : isCompute w = false) :
    encodeWith c (decodeWith c w) = w := by
  rw [decodeWith_of_not_isCompute c h, encodeWith_address, literalField_setWidth w h]

theorem decodeWith_wellFormedIn (c : Config) (w : Word) : (decodeWith c w).wellFormedIn c = true := by
  cases h : isCompute w with
  | false => rw [decodeWith_of_not_isCompute c h]; rfl
  | true =>
    obtain ⟨op, hop, hw⟩ | ⟨hop, hw⟩ := decodeWith_of_isCompute c h
    · rw [hw, Instr.wellFormedIn_ofOp]
      exact (Config.compCode_of_opOfCode hop).1
    · rw [hw]
      exact Option.isNone_iff_eq_none.mpr hop

/-! ### The fields of a compute word as numbers (R62) -/

theorem compField_toNat (w : Word) : (compField w).toNat = w.toNat / 64 % 128 := by
  rw [compField, BitVec.extractLsb'_toNat, Nat.shiftRight_eq_div_pow]

theorem destField_toNat (w : Word) : (destField w).toNat = w.toNat / 8 % 8 := by
  rw [destField, BitVec.extractLsb'_toNat, Nat.shiftRight_eq_div_pow]

theorem jumpField_toNat (w : Word) : (jumpField w).toNat = w.toNat % 8 := by
  rw [jumpField, BitVec.extractLsb'_toNat, Nat.shiftRight_zero]

/-- A compute word decodes by its three fields alone, so by its low 13 bits (R63). -/
theorem decodeWith_eq_of_low_bits_eq (c : Config) {w₁ w₂ : Word} (h₁ : isCompute w₁ = true) (h₂ : isCompute w₂ = true)
    (h : w₁.toNat % 8192 = w₂.toNat % 8192) : decodeWith c w₁ = decodeWith c w₂ := by
  have hcomp : compField w₁ = compField w₂ := BitVec.eq_of_toNat_eq (by rw [compField_toNat, compField_toNat]; omega)
  have hdest : destField w₁ = destField w₂ := BitVec.eq_of_toNat_eq (by rw [destField_toNat, destField_toNat]; omega)
  have hjump : jumpField w₁ = jumpField w₂ := BitVec.eq_of_toNat_eq (by rw [jumpField_toNat, jumpField_toNat]; omega)
  simp only [decodeWith, h₁, h₂, hcomp, hdest, hjump, if_true]

end Sys2Proof

namespace Sys2Proof.Proofs

open Sys2Proof.Machine Sys2Proof.Claims

/-- Settles O1: an operation is found under its own code in an injective table, and the code of an illegal-code instruction is found
under none, because the instruction is well-formed. -/
theorem decodeInvertsEncode : Obligations.DecodeInvertsEncode :=
  fun _ hc _ hi => decodeWith_encodeWith hc hi

/-- Settles O2, class by class. -/
theorem encodeInvertsDecodeButForIgnoredBits : Obligations.EncodeInvertsDecodeButForIgnoredBits := by
  intro c w
  split
  next hhigh => exact encodeWith_decodeWith_of_isCompute c ((isCompute_eq_true_iff w).mpr hhigh)
  next hlow => exact encodeWith_decodeWith_of_not_isCompute c ((isCompute_eq_false_iff w).mpr (Nat.not_le.mp hlow))

/-- Settles O3: the look-up answers only operations that exist, and an illegal code is one it answers nothing for. -/
theorem everyWordDecodesToAWellFormedInstruction : Obligations.EveryWordDecodesToAWellFormedInstruction :=
  decodeWith_wellFormedIn

/-- Settles O4: the three fields lie in bits 12:0. -/
theorem ignoredBitsTakeNoPartInDecoding : Obligations.IgnoredBitsTakeNoPartInDecoding :=
  fun c w₁ w₂ h₁ h₂ h =>
    decodeWith_eq_of_low_bits_eq c ((isCompute_eq_true_iff w₁).mpr h₁) ((isCompute_eq_true_iff w₂).mpr h₂) h

/-- Settles O6, by running the decoder on the nine words. -/
theorem writtenOutWordsDecode : Obligations.WrittenOutWordsDecode := by
  unfold Obligations.WrittenOutWordsDecode
  decide

/-- Settles O7, by looking up the 128 codes. -/
theorem hundredCompCodesAreIllegal : Obligations.HundredCompCodesAreIllegal := by
  unfold Obligations.HundredCompCodesAreIllegal
  decide

end Sys2Proof.Proofs

/-! SUPPORT. The jump condition and the compute instruction's outcome in the arithmetic of the statements: the lemmas that settle
the statements on jumps (spec/44_compute_jump.md R155 to R166) and on the completion of each instruction (spec/42_compute_alu.md). -/

namespace Sys2Proof.Machine

open Sys2Proof.Claims

/-! ### The sign class of a result (R155) -/

theorem s16_neg_iff (r : Word) : s16 r < 0 ↔ 32768 ≤ r.toNat := by
  rw [BitVec.toInt_neg_iff]
  omega

theorem s16_eq_zero_iff (r : Word) : s16 r = 0 ↔ r.toNat = 0 := by
  rw [← BitVec.toInt_zero, BitVec.toInt_inj, ← BitVec.toNat_inj, BitVec.toNat_zero]

theorem fires_eq_true_iff (j : Jump) (r : Word) : fires j r = true ↔
    (j.code.getLsbD 2 = true ∧ s16 r < 0) ∨ (j.code.getLsbD 1 = true ∧ s16 r = 0) ∨
    (j.code.getLsbD 0 = true ∧ 0 < s16 r) := by
  have hneg : r.getLsbD 15 = true ↔ s16 r < 0 := by rw [getLsbD_15_eq, decide_eq_true_eq, s16_neg_iff]
  have hzero : r = 0 ↔ s16 r = 0 := by rw [s16_eq_zero_iff, ← BitVec.toNat_inj]; rfl
  have hpos : 0 < s16 r ↔ ¬ s16 r = 0 ∧ ¬ s16 r < 0 := by omega
  simp only [fires, Bool.or_eq_true, Bool.and_eq_true, beq_iff_eq, bne_iff_ne, Bool.not_eq_true', ← Bool.not_eq_true,
    hneg, hzero, hpos, ne_eq, or_assoc]

theorem jumpCond_eq_fires (j : Jump) (r : Word) : jumpCond j r = fires j r := by
  rw [Bool.eq_iff_iff, fires_eq_true_iff]
  cases j <;> simp [jumpCond, Jump.code] <;> omega

/-! ### The next `pc` -/

theorem zext16_addr15_toNat (v : Word) : (zext16 (addr15 v)).toNat = v.toNat % 32768 := by
  rw [zext16_toNat, addr15_toNat]

theorem nextAddress_toNat (pc : Word) : (zext16 (addr15 (pc + 1))).toNat = (pc.toNat + 1) % 32768 := by
  rw [zext16_addr15_toNat, BitVec.toNat_add]
  show (pc.toNat + 1) % 65536 % 32768 = _
  omega

/-! ### A compute instruction's outcome under any parameters -/

section
variable {c : Config} {r : Word} {d : Dest} {j : Jump} {s t : State}

theorem Computed.read_dmem (h : Computed c r d j s t) (a : Addr) :
    t.dmem.read a = if d.mem = true ∧ a = storeTarget c d r s then r else s.dmem.read a := by
  cases hm : d.mem with
  | false => rw [h.dmem_of_not_stored hm, if_neg (by simp)]
  | true =>
    obtain ⟨hdmem, -⟩ := h.stores hm
    rw [hdmem, read_memWrite]
    simp only [true_and]

theorem Computed.events_eq_append (h : Computed c r d j s t) :
    t.events = s.events ++
      if d.mem = true ∧ 16384 ≤ (storeTarget c d r s).toNat ∧ (storeTarget c d r s).toNat < 24576
        then sixteenEvents (storeTarget c d r s).toNat r else [] := by
  cases hm : d.mem with
  | false => rw [h.events_of_not_stored hm, if_neg (by simp), List.append_nil]
  | true =>
    obtain ⟨-, hevents⟩ := h.stores hm
    rw [hevents, memWrite_events_eq_append]
    simp only [true_and]

/-- R165, R166: the low 15 bits of the `ra` that `JUMP_TARGET` chooses, or the next address. -/
theorem Computed.pc_toNat (h : Computed c r d j s t) :
    t.pc.toNat = if fires j r then (RaChoice.pick c.jumpTarget s.ra t.ra).toNat % 32768 else (s.pc.toNat + 1) % 32768 := by
  rw [h.pc, h.ra, jumpCond_eq_fires]
  split
  · exact zext16_addr15_toNat _
  · exact nextAddress_toNat _

/-- With `MEM_WRITE_ADDR = new_ra` the store goes to the `ra` that the instruction leaves (R150). -/
theorem Computed.storeTarget_of_newRa (h : Computed c r d j s t) (hc : c.memWriteAddr = .newRa) :
    storeTarget c d r s = addr15 t.ra := by
  rw [storeTarget, chosenRa, hc, h.ra]; rfl

end

/-! ### At the default parameters -/

theorem Computed.afterCompute {r : Word} {d : Dest} {j : Jump} {s t : State} (h : Computed Config.default r d j s t) :
    AfterCompute r d j s t where
  ra := h.ra
  rd := h.rd
  rm := h.rm
  imem := h.imem
  stored a := by rw [h.read_dmem, h.storeTarget_of_newRa rfl]
  events := by rw [h.events_eq_append, h.storeTarget_of_newRa rfl, addr15_toNat]
  pc := h.pc_toNat

theorem completesWith_of_computeResult {d : Dest} {j : Jump} {s : State} {i : Instr} {r : Word}
    (hr : ComputeResult Config.default d j s i r) : CompletesWith i r d j s := by
  obtain ⟨t, ht, hc⟩ := compute_default r d j s
  refine ⟨t, ?_, hc.afterCompute⟩
  rw [exec_eq_execWith, execWith_of_computeResult hr, ht]

/-! ### The ALU in the arithmetic of R7 -/

theorem not16_eq_inverted (v : Word) : not16 v = inverted v := by
  apply BitVec.eq_of_toNat_eq
  rw [inverted, BitVec.toNat_not, BitVec.toNat_ofNat]
  omega

theorem add16_eq_u16 (a b : Word) : add16 a b = u16 (a.toInt + b.toInt) := by
  rw [u16, BitVec.ofInt_add, BitVec.ofInt_toInt, BitVec.ofInt_toInt]

theorem sub16_eq_u16 (a b : Word) : sub16 a b = u16 (a.toInt - b.toInt) := by
  rw [u16, Int.sub_eq_add_neg, BitVec.ofInt_add, BitVec.ofInt_neg, BitVec.ofInt_toInt, BitVec.ofInt_toInt, sub16,
    BitVec.sub_eq_add_neg]

theorem neg16_eq_u16 (v : Word) : neg16 v = u16 (-v.toInt) := by
  rw [← Int.zero_sub]
  exact sub16_eq_u16 0 v

/-- The row of `tableResult` under an operation's own code is the ALU's result (R66, R102 to R129). -/
theorem tableResult_compCodeTable (op : AluOp) (o : Operands) :
    tableResult (compCodeTable op).toNat o.ra o.rd o.rm = alu op o := by
  symm
  cases op with
  | notRd | notRa | notRm => exact not16_eq_inverted _
  | negRd | negRa | negRm => exact neg16_eq_u16 _
  | incRd | incRa | incRm => exact add16_eq_u16 _ 1
  | decRd | decRa | decRm => exact sub16_eq_u16 _ 1
  | rdAddRa | rdAddRm => exact add16_eq_u16 _ _
  | rdSubRa | raSubRd | rdSubRm | rmSubRd => exact sub16_eq_u16 _ _
  | _ => rfl

/-- Every number that has a row of its own in `tableResult` is the code of an operation, so an illegal code gets the sentinel. -/
theorem tableResult_of_illegal {comp : BitVec 7} (h : Config.default.opOfCode comp = none) (ra rd rm : Word) :
    tableResult comp.toNat ra rd rm = 1337 := by
  have hcode : Config.default.opOfCode (BitVec.ofNat 7 comp.toNat) = none := by
    rw [BitVec.ofNat_toNat, BitVec.setWidth_eq, h]
  rw [tableResult.eq_29]
  all_goals
    intro hrow
    rw [hrow] at hcode
    exact absurd hcode (by decide)

theorem resultOf_default (inst : Word) (o : Operands) :
    resultOf Config.default inst o = tableResult (inst.toNat / 64 % 128) o.ra o.rd o.rm := by
  rw [← compField_toNat]
  cases hop : Config.default.opOfCode (compField inst) with
  | some op =>
    have hcode : compField inst = compCodeTable op := (Config.compCode_of_opOfCode hop).2.symm
    rw [hcode, tableResult_compCodeTable]
    simp only [resultOf, hop]
  | none =>
    rw [tableResult_of_illegal hop]
    simp only [resultOf, hop]
    rfl

/-- Every documented operation completes, with the result that its row of `tableResult` gives. -/
theorem completesWith_tableResult (op : AluOp) (d : Dest) (j : Jump) (s : State) :
    CompletesWith (Instr.ofOp op d j) (tableResult (compCodeTable op).toNat s.ra s.rd s.rm) d j s := by
  have hrow : tableResult (compCodeTable op).toNat s.ra s.rd s.rm = alu op s.operands :=
    tableResult_compCodeTable op s.operands
  rw [hrow]
  exact completesWith_of_computeResult (.operation op)

end Sys2Proof.Machine

namespace Sys2Proof.Proofs

open Sys2Proof.Machine Sys2Proof.Claims

/-- Settles O25, code by code, each a disjunction of the sign classes that its bits select. -/
theorem jumpConditionIsTheSelectedSignClass : Obligations.JumpConditionIsTheSelectedSignClass :=
  jumpCond_eq_fires

/-- Settles O26: the negative results are those from 0x8000 on. -/
theorem jumpConditionsAsUnsignedRanges : Obligations.JumpConditionsAsUnsignedRanges := by
  intro r
  have hneg := s16_neg_iff r
  have hzero := s16_eq_zero_iff r
  refine ⟨rfl, ?_, ?_, ?_, ?_, ?_, ?_, rfl⟩ <;> simp only [jumpCond, decide_eq_true_eq] <;> omega

/-- Settles O27, for the shared body of all compute instructions. -/
theorem programCounterUnderAnyParameters : Obligations.ProgramCounterUnderAnyParameters := by
  intro c d j s i r hr t ht
  rw [execWith_of_computeResult hr] at ht
  exact (compute_next ht).pc_toNat

/-- Settles O14. The outcome is written out by `loadAddress_default`. -/
theorem addressInstructionCompletes : Obligations.AddressInstructionCompletes := by
  intro value s
  exact ⟨_, loadAddress_default value s, zext16_toNat value, nextAddress_toNat s.pc, rfl, rfl, rfl, fun _ => rfl, rfl⟩

/-- Settles O15: the three rows of `tableResult` are the constants. -/
theorem constantInstructionsComplete : Obligations.ConstantInstructionsComplete :=
  fun d j s => ⟨completesWith_tableResult .zero d j s, completesWith_tableResult .one d j s,
    completesWith_tableResult .minusOne d j s⟩

/-- Settles O16, each operation by its row of `tableResult`. -/
theorem unaryDataAddressInstructionsComplete : Obligations.UnaryDataAddressInstructionsComplete :=
  fun d j s => ⟨completesWith_tableResult .passRd d j s, completesWith_tableResult .passRa d j s,
    completesWith_tableResult .notRd d j s, completesWith_tableResult .notRa d j s,
    completesWith_tableResult .negRd d j s, completesWith_tableResult .negRa d j s,
    completesWith_tableResult .incRd d j s, completesWith_tableResult .incRa d j s,
    completesWith_tableResult .decRd d j s, completesWith_tableResult .decRa d j s⟩

/-- Settles O17, each operation by its row of `tableResult`. -/
theorem binaryDataAddressInstructionsComplete : Obligations.BinaryDataAddressInstructionsComplete :=
  fun d j s => ⟨completesWith_tableResult .rdAddRa d j s, completesWith_tableResult .rdSubRa d j s,
    completesWith_tableResult .raSubRd d j s, completesWith_tableResult .rdAndRa d j s,
    completesWith_tableResult .rdOrRa d j s⟩

/-- Settles O18, each operation by its row of `tableResult`. -/
theorem unaryMemoryInstructionsComplete : Obligations.UnaryMemoryInstructionsComplete :=
  fun d j s => ⟨completesWith_tableResult .passRm d j s, completesWith_tableResult .notRm d j s,
    completesWith_tableResult .negRm d j s, completesWith_tableResult .incRm d j s,
    completesWith_tableResult .decRm d j s⟩

/-- Settles O19, each operation by its row of `tableResult`. -/
theorem binaryMemoryInstructionsComplete : Obligations.BinaryMemoryInstructionsComplete :=
  fun d j s => ⟨completesWith_tableResult .rdAddRm d j s, completesWith_tableResult .rdSubRm d j s,
    completesWith_tableResult .rmSubRd d j s, completesWith_tableResult .rdAndRm d j s,
    completesWith_tableResult .rdOrRm d j s⟩

/-- Settles O20: the sentinel is a result like any other to the shared body of all compute instructions. -/
theorem illegalCodeInstructionsComplete : Obligations.IllegalCodeInstructionsComplete :=
  fun comp _ _ _ => completesWith_of_computeResult (.illegal comp)

/-- Settles O47: an operation outside the list has a line that does not mention the register. -/
theorem operationsReadOnlyTheirNamedRegisters : Obligations.OperationsReadOnlyTheirNamedRegisters := by
  refine ⟨fun o v op hop => ?_, fun o v op hop => ?_, fun o v op hop => ?_⟩
  · cases op with
    | passRm | notRm | negRm | incRm | decRm | rdAddRm | rdSubRm | rmSubRd | rdAndRm | rdOrRm => exact absurd (by decide) hop
    | _ => rfl
  · cases op with
    | passRa | notRa | negRa | incRa | decRa | rdAddRa | rdSubRa | raSubRd | rdAndRa | rdOrRa => exact absurd (by decide) hop
    | _ => rfl
  · cases op with
    | passRd | notRd | negRd | incRd | decRd | rdAddRa | rdSubRa | raSubRd | rdAndRa | rdOrRa
    | rdAddRm | rdSubRm | rmSubRd | rdAndRm | rdOrRm => exact absurd (by decide) hop
    | _ => rfl

end Sys2Proof.Proofs

/-! SUPPORT. One compute instruction under any parameters: the lemmas that settle the statements on its destinations
(spec/43_compute_dest.md R140 to R150, spec/70_reset_and_hazards.md R220) and on the steps that the `fault` parameters stop
(spec/60_exceptions.md R192). -/

namespace Sys2Proof.Machine

open Sys2Proof.Claims

/-! ### The destinations that are not enabled, and the word that was read -/

section
variable {c : Config} {r : Word} {d : Dest} {j : Jump} {s t : State}

theorem Computed.ra_of_disabled (h : Computed c r d j s t) (ha : d.ra = false) : t.ra = s.ra := by
  rw [h.ra, ha]; rfl

theorem Computed.rd_of_disabled (h : Computed c r d j s t) (hd : d.rd = false) : t.rd = s.rd := by
  rw [h.rd, hd]; rfl

theorem Computed.read_dmem_other (h : Computed c r d j s t) {a : Addr} (ha : d.mem = true → a ≠ storeTarget c d r s) :
    t.dmem.read a = s.dmem.read a := by
  rw [h.read_dmem, if_neg fun hstored => ha hstored.1 hstored.2]

/-- R220: the new `ra` is the result, so the store goes to the word at the result. -/
theorem Computed.sparesTheWordRead (h : Computed c r d j s t) (hc : c.memWriteAddr = .newRa) (ha : d.ra = true)
    (hm : d.mem = true) : SparesTheWordRead r s t := by
  have htarget : storeTarget c d r s = addr15 r := by rw [h.storeTarget_of_newRa hc, h.ra_of_enabled ha]
  constructor
  · rw [← htarget]
    exact h.read_storeTarget hm
  · intro hne
    exact h.read_dmem_other fun _ => htarget ▸ hne.symm

end

/-! ### Where `pc` has no next value -/

theorem updatePc_of_target_error {c : Config} {oldRa : Word} {s : State} {f : Fault}
    (h : effectiveAddress c (RaChoice.pick c.jumpTarget oldRa s.ra) = .error f) : updatePc c true oldRa s = .error f := by
  simp only [updatePc, if_true, h]

theorem updatePc_of_successor_error {c : Config} {s : State} {f : Fault} (h : pcSuccessor c s.pc = .error f) (oldRa : Word) :
    updatePc c false oldRa s = .error f := by
  simp only [updatePc, Bool.false_eq_true, if_false, h]

theorem loadAddress_of_successor_error {c : Config} {s : State} {f : Fault} (h : pcSuccessor c s.pc = .error f)
    (value : Addr) : loadAddress c value s = .fault f := by
  rw [loadAddress, updatePc_of_successor_error (s := s.setRa (zext16 value)) h]
  rfl

/-! ### A compute instruction: its writes, and then its `pc` -/

section
variable {c : Config} {r : Word} {d : Dest} {j : Jump} {s : State}

theorem compute_of_writes_error {f : Fault} (h : writeDestinations c d r s = .error f) : compute c r d j s = .fault f := by
  simp only [compute, h]

theorem compute_of_writes_ok {s₁ : State} (h : writeDestinations c d r s = .ok s₁) :
    compute c r d j s = toOutcome (updatePc c (fires j r) s.ra s₁) := by
  simp only [compute, h, jumpCond_eq_fires]

theorem compute_of_store_error {f : Fault} (hm : d.mem = true)
    (h : effectiveAddress c (chosenRa c.memWriteAddr d r s) = .error f) : compute c r d j s = .fault f :=
  compute_of_writes_error (writeDestinations_of_store_error hm h)

/-- A taken jump to an `ra` with bit 15 set stops the step, if its store has not stopped it before, for the same reason (U2). -/
theorem compute_of_jump_bit15 (hc : c.addrPolicy = .fault) (hj : fires j r = true)
    (h : 32768 ≤ (chosenRa c.jumpTarget d r s).toNat) : compute c r d j s = .fault .addressBit15 := by
  cases hw : writeDestinations c d r s with
  | error f =>
    obtain ⟨rfl, -⟩ := effectiveAddress_error (writeDestinations_error hw).2
    exact compute_of_writes_error hw
  | ok s₁ =>
    have htarget : effectiveAddress c (RaChoice.pick c.jumpTarget s.ra s₁.ra) = .error .addressBit15 := by
      rw [(writeDestinations_ok hw).ra]
      exact effectiveAddress_of_bit15 hc h
    rw [compute_of_writes_ok hw, hj, updatePc_of_target_error htarget]
    rfl

/-- Where `pc` has no successor and the jump is not taken, the writes stop the instruction or else the missing successor does. -/
theorem compute_of_successor_error {f : Fault} (hj : fires j r = false) (h : pcSuccessor c s.pc = .error f) :
    (∃ g, writeDestinations c d r s = .error g ∧ compute c r d j s = .fault g) ∨ compute c r d j s = .fault f := by
  cases hw : writeDestinations c d r s with
  | error g => exact .inl ⟨g, rfl, compute_of_writes_error hw⟩
  | ok s₁ =>
    have hpc : pcSuccessor c s₁.pc = .error f := (writeDestinations_ok hw).pc ▸ h
    rw [compute_of_writes_ok hw, hj, updatePc_of_successor_error hpc]
    exact .inr rfl

theorem compute_ne_next_of_successor_error {f : Fault} (hj : fires j r = false) (h : pcSuccessor c s.pc = .error f)
    (t : State) : compute c r d j s ≠ .next t := by
  obtain ⟨g, -, hg⟩ | hf := compute_of_successor_error hj h
  · rw [hg]; exact nofun
  · rw [hf]; exact nofun

theorem compute_of_successor_error_of_presentable {f : Fault} (hj : fires j r = false) (h : pcSuccessor c s.pc = .error f)
    (hstore : d.mem = true → Presentable c (chosenRa c.memWriteAddr d r s)) : compute c r d j s = .fault f := by
  obtain ⟨g, hg, -⟩ | hf := compute_of_successor_error hj h
  · obtain ⟨hm, haddr⟩ := writeDestinations_error hg
    have hok := effectiveAddress_of_presentable (hstore hm)
    rw [chosenRa, haddr] at hok
    cases hok
  · exact hf

end

/-! ### From the instruction to the step -/

theorem stepWith_of_presentable {c : Config} {s : State} (h : Presentable c s.ra) :
    stepWith c s = execWith c (decodeWith c (fetch s)) (refreshed s) :=
  stepWith_of_refresh (effectiveAddress_of_presentable h)

theorem stepWith_ne_next {c : Config} {s : State}
    (h : ∀ t, execWith c (decodeWith c (fetch s)) (refreshed s) ≠ .next t) (t : State) : stepWith c s ≠ .next t := by
  cases ha : effectiveAddress c s.ra with
  | error f => rw [stepWith_of_refresh_error ha]; exact nofun
  | ok a => rw [stepWith_of_refresh ha]; exact h t

theorem stepWith_of_ra_bit15 {c : Config} {s : State} (hc : c.addrPolicy = .fault) (h : 32768 ≤ s.ra.toNat) :
    stepWith c s = .fault .addressBit15 :=
  stepWith_of_refresh_error (effectiveAddress_of_bit15 hc h)

theorem execWith_of_stepComputes {c : Config} {s : State} {d : Dest} {j : Jump} {r : Word} (h : StepComputes c s d j r) :
    execWith c (decodeWith c (fetch s)) (refreshed s) = compute c r d j (refreshed s) :=
  execWith_of_computeResult h

/-- A compute step whose instruction stops on bit 15 of an address stops so, at its refresh or there. -/
theorem stepWith_of_compute_bit15 {c : Config} {s : State} {d : Dest} {j : Jump} {r : Word} (hc : c.addrPolicy = .fault)
    (hr : StepComputes c s d j r) (h : compute c r d j (refreshed s) = .fault .addressBit15) :
    stepWith c s = .fault .addressBit15 := by
  by_cases hra : 32768 ≤ s.ra.toNat
  · exact stepWith_of_ra_bit15 hc hra
  · rw [stepWith_of_presentable (.inr (Nat.not_le.mp hra)), execWith_of_stepComputes hr, h]

theorem stepWith_of_mask_of_wrap {c : Config} (hm : c.addrPolicy = .mask) (hw : c.pcOverflow = .wrap) (s : State) :
    ∃ t, stepWith c s = .next t := by
  rw [stepWith_of_presentable (.inl hm)]
  cases hc : isCompute (fetch s) with
  | false =>
    rw [execWith_decode_address c hc]
    obtain ⟨t, ht⟩ :=
      updatePc_of_mask_of_wrap hm hw false (refreshed s).ra ((refreshed s).setRa (zext16 (literalField (fetch s))))
    exact ⟨t, by rw [loadAddress, ht]; rfl⟩
  | true =>
    rw [execWith_decode_compute c hc]
    exact compute_of_mask_of_wrap hm hw _ _ _ _

end Sys2Proof.Machine

namespace Sys2Proof.Proofs

open Sys2Proof.Machine Sys2Proof.Claims

/-- Settles O21: the meaning of an illegal code does not look at the code. -/
theorem illegalCodesAllActAlike : Obligations.IllegalCodesAllActAlike := by
  intro c w₁ w₂ d j s t
  refine ⟨rfl, fun ht hd => ?_⟩
  rw [execWith_illegalCompCode] at ht
  exact (compute_next ht).rd_of_enabled hd

/-- Settles O23, field by field. -/
theorem disabledDestinationsKeepTheirValue : Obligations.DisabledDestinationsKeepTheirValue := by
  intro c d j s i r hr t ht
  rw [execWith_of_computeResult hr] at ht
  have h : Computed c r d j s t := compute_next ht
  exact ⟨h.ra_of_disabled, h.rd_of_disabled, fun _ => h.read_dmem_other, h.events_of_not_stored, h.rm, h.imem⟩

/-- Settles O24: the default parameters are a case of `MEM_WRITE_ADDR = new_ra`. -/
theorem addressAndMemoryDestinationsSpareTheWordRead : Obligations.AddressAndMemoryDestinationsSpareTheWordRead := by
  have hspare : ∀ (c : Config) (d : Dest) (j : Jump) (s : State) (i : Instr) (r : Word), ComputeResult c d j s i r →
      c.memWriteAddr = .newRa → d.ra = true → d.mem = true →
      ∀ t : State, execWith c i s = .next t → SparesTheWordRead r s t := by
    intro c d j s i r hr hc ha hm t ht
    rw [execWith_of_computeResult hr] at ht
    exact (compute_next ht).sparesTheWordRead hc ha hm
  refine ⟨fun d j s i r hr ha hm t ht => ?_, hspare⟩
  rw [exec_eq_execWith] at ht
  exact hspare Config.default d j s i r hr rfl ha hm t ht

/-- Settles O28: the refresh, the store and the jump use masked addresses, and `pc` always has a successor. -/
theorem maskAndWrapMakeEveryStepComplete : Obligations.MaskAndWrapMakeEveryStepComplete :=
  fun _ hm hw s => stepWith_of_mask_of_wrap hm hw s

/-- Settles O29: the refresh, the store and the jump are the three uses of `ra` as an address, in that order, and each stops the step
for the same reason. -/
theorem faultPolicyStopsOnAddressBit15 : Obligations.FaultPolicyStopsOnAddressBit15 := by
  intro c s hc
  refine ⟨stepWith_of_ra_bit15 hc, fun d j r hr => ⟨fun hm hstore => ?_, fun hj hjump => ?_⟩⟩
  · exact stepWith_of_compute_bit15 hc hr (compute_of_store_error hm (effectiveAddress_of_bit15 hc hstore))
  · exact stepWith_of_compute_bit15 hc hr (compute_of_jump_bit15 hc hj hjump)

/-- Settles O30: at the last address `pc` has no successor, which both classes need when they do not jump. -/
theorem faultPolicyStopsAtTheLastAddress : Obligations.FaultPolicyStopsAtTheLastAddress := by
  intro c s hc hpc
  have hlast : pcSuccessor c (refreshed s).pc = .error .pcOverflow := pcSuccessor_of_last hc hpc.ge
  constructor
  · intro hword
    have hclass : isCompute (fetch s) = false := (isCompute_eq_false_iff _).mpr hword
    have hexec : execWith c (decodeWith c (fetch s)) (refreshed s) = .fault .pcOverflow := by
      rw [execWith_decode_address c hclass, loadAddress_of_successor_error hlast]
    refine ⟨stepWith_ne_next fun t => ?_, fun hra => ?_⟩
    · rw [hexec]; exact nofun
    · rw [stepWith_of_presentable hra, hexec]
  · intro d j r hr hj
    have hexec := execWith_of_stepComputes hr
    refine ⟨stepWith_ne_next fun t => ?_, fun hra hstore => ?_⟩
    · rw [hexec]
      exact compute_ne_next_of_successor_error hj hlast t
    · rw [stepWith_of_presentable hra, hexec]
      exact compute_of_successor_error_of_presentable hj hlast hstore

end Sys2Proof.Proofs

/-! SUPPORT. The whole step at the default parameters: the lemmas that settle the statements on its completion, on the refresh of
`rm`, and on its effect from the bits of the word at `pc` (spec/40_step_cycle.md R80 to R92). -/

namespace Sys2Proof.Machine

open Sys2Proof.Claims

/-! ### The refresh and the instruction -/

theorem step_eq_exec (s : State) : step s = exec (decode (fetch s)) (refreshed s) := rfl

theorem stepWith_rm {c : Config} {s t : State} (h : stepWith c s = .next t) : t.rm = s.dmem.read (addr15 s.ra) := by
  obtain ⟨-, rfl⟩ | ⟨-, hc⟩ := stepWith_next h
  · rfl
  · exact hc.rm

theorem step_rm {s t : State} (h : step s = .next t) : t.rm = s.dmem.read (addr15 s.ra) := by
  rw [step_eq_stepWith] at h
  exact stepWith_rm h

/-- R87, R190: every instruction has an outcome in every state. -/
theorem exec_completes (i : Instr) (s : State) : ∃ t, exec i s = .next t := by
  obtain ⟨value, rfl⟩ | ⟨op, d, j, rfl⟩ | ⟨comp, d, j, rfl⟩ := i.exists_form
  · exact ⟨_, loadAddress_default value s⟩
  · obtain ⟨t, ht, -⟩ := completesWith_tableResult op d j s
    exact ⟨t, ht⟩
  · obtain ⟨t, ht, -⟩ := completesWith_of_computeResult (.illegal comp (d := d) (j := j) (s := s))
    exact ⟨t, ht⟩

theorem step_completes (s : State) : ∃ t, step s = .next t :=
  exec_completes _ _

/-! ### A placed word (log 16) -/

theorem withFetchWord_imem (s : State) (w : Word) :
    (s.withFetchWord 16 w.toNat).imem = s.imem.write (addr15 s.pc) w := by
  show s.imem.write (addr15 s.pc) (BitVec.ofNat 16 (w.toNat % 2 ^ 16)) = _
  rw [Nat.mod_eq_of_lt w.isLt, BitVec.ofNat_toNat, BitVec.setWidth_eq]

theorem fetch_withFetchWord (s : State) (w : Word) : fetch (s.withFetchWord 16 w.toNat) = w := by
  show (s.withFetchWord 16 w.toNat).imem.read (addr15 s.pc) = w
  rw [withFetchWord_imem, Memory.read_write_same]

/-! ### The destination and jump fields as bits of the word -/

theorem getLsbD_eq_true_iff (w : Word) (k : Nat) : w.getLsbD k = true ↔ w.toNat / 2 ^ k % 2 = 1 := by
  rw [← BitVec.testBit_toNat, Nat.testBit_eq_decide_div_mod_eq, decide_eq_true_eq]

theorem destField_ra_iff (w : Word) : (Dest.ofCode (destField w)).ra = true ↔ w.toNat / 32 % 2 = 1 := by
  have hbit : (Dest.ofCode (destField w)).ra = w.getLsbD 5 := by simp [Dest.ofCode, destField]
  rw [hbit]
  exact getLsbD_eq_true_iff w 5

theorem destField_rd_iff (w : Word) : (Dest.ofCode (destField w)).rd = true ↔ w.toNat / 16 % 2 = 1 := by
  have hbit : (Dest.ofCode (destField w)).rd = w.getLsbD 4 := by simp [Dest.ofCode, destField]
  rw [hbit]
  exact getLsbD_eq_true_iff w 4

theorem destField_mem_iff (w : Word) : (Dest.ofCode (destField w)).mem = true ↔ w.toNat / 8 % 2 = 1 := by
  have hbit : (Dest.ofCode (destField w)).mem = w.getLsbD 3 := by simp [Dest.ofCode, destField]
  rw [hbit]
  exact getLsbD_eq_true_iff w 3

theorem fieldFires_code_iff (j : Jump) (r : Word) : fieldFires j.code.toNat r ↔ jumpCond j r = true := by
  cases j <;> simp [fieldFires, jumpCond, Jump.code]

theorem fieldFires_iff (w r : Word) : fieldFires (w.toNat % 8) r ↔ fires (Jump.ofCode (jumpField w)) r = true := by
  rw [← jumpField_toNat, ← jumpCond_eq_fires, ← fieldFires_code_iff, Jump.code_ofCode]

/-! ### The effect of a step from the word's bits (R89) -/

theorem eq_addr15_iff (a : Addr) (v : Word) : a = addr15 v ↔ a.toNat = v.toNat % 32768 := by
  rw [← BitVec.toNat_inj, addr15_toNat]

theorem stepSummary_of_step {s t : State} (h : step s = .next t) : StepSummary (fetch s) s t := by
  rw [step_eq_stepWith] at h
  refine ⟨stepWith_rm h, stepWith_imem h, fun hword => ?_, fun hword r hr => ?_⟩
  · obtain ⟨hclass, rfl⟩ | ⟨hclass, -⟩ := stepWith_next h
    · exact ⟨literalField_setWidth _ hclass, rfl, rfl, rfl, nextAddress_toNat s.pc⟩
    · exact absurd ((isCompute_eq_true_iff _).mp hclass) (Nat.not_le.mpr hword)
  · obtain ⟨hclass, -⟩ | ⟨-, hc⟩ := stepWith_next h
    · exact absurd ((isCompute_eq_false_iff _).mp hclass) (Nat.not_lt.mpr hword)
    · have hresult : resultOf Config.default (fetch s) (refreshed s).operands = r := by rw [resultOf_default, hr]; rfl
      rw [hresult] at hc
      obtain ⟨hra, hrd, -, -, hstored, hevents, hpc⟩ := hc.afterCompute
      simp only [destField_ra_iff, destField_rd_iff, destField_mem_iff, eq_addr15_iff] at hra hrd hstored hevents
      refine ⟨hra, hrd, hstored, hevents, fun hfires => ?_, fun hfires => ?_⟩
      · rw [hpc, if_pos ((fieldFires_iff _ r).mp hfires)]
      · rw [hpc, if_neg (mt (fieldFires_iff _ r).mpr hfires)]
        rfl

/-! ### The two instructions of a terminal loop (R181) -/

theorem addr15_ofNat (n : Nat) : addr15 (BitVec.ofNat 16 n) = BitVec.ofNat 15 n := by
  apply BitVec.eq_of_toNat_eq
  rw [addr15_toNat, BitVec.toNat_ofNat, BitVec.toNat_ofNat]
  omega

theorem zext16_ofNat {n : Nat} (h : n < 32768) : zext16 (BitVec.ofNat 15 n) = BitVec.ofNat 16 n := by
  apply BitVec.eq_of_toNat_eq
  rw [zext16_toNat, BitVec.toNat_ofNat, BitVec.toNat_ofNat]
  omega

theorem ofNat_toNat_of_lt {n : Nat} (h : n < 32768) : (BitVec.ofNat 16 n).toNat = n :=
  Nat.mod_eq_of_lt (by omega)

/-- What `@n` does when it is the word at `pc`: `ra` is `n`, `rm` is fresh, `pc` advances. -/
theorem step_of_literal {s : State} {n : Nat} (hn : n < 32768) (h : fetch s = BitVec.ofNat 16 n) :
    step s = .next (((refreshed s).setRa (BitVec.ofNat 16 n)).setPc (zext16 (addr15 (s.pc + 1)))) := by
  have hclass : isCompute (BitVec.ofNat 16 n) = false := by
    rw [isCompute_eq_false_iff, ofNat_toNat_of_lt hn]
    exact hn
  have hliteral : zext16 (literalField (BitVec.ofNat 16 n)) = BitVec.ofNat 16 n := literalField_setWidth _ hclass
  rw [step_eq_exec, exec_eq_execWith, decode, h, execWith_decode_address _ hclass, loadAddress_default, hliteral]
  rfl

/-- What a compute word with no destination and the plain jump does: it stores nothing and goes to the low 15 bits of `ra`. -/
theorem step_of_plain_jump {s t : State} (hclass : isCompute (fetch s) = true) (hdest : destField (fetch s) = 0)
    (hjump : jumpField (fetch s) = 7) (h : step s = .next t) :
    t.pc = zext16 (addr15 s.ra) ∧ t.ra = s.ra ∧ t.rd = s.rd ∧ t.imem = s.imem ∧ t.dmem = s.dmem ∧
    t.events = s.events := by
  rw [step_eq_stepWith] at h
  obtain ⟨hfalse, -⟩ | ⟨-, hc⟩ := stepWith_next h
  · rw [hclass] at hfalse; cases hfalse
  · rw [hdest, hjump] at hc
    exact ⟨hc.pc, hc.ra, hc.rd, hc.imem, hc.dmem, hc.events⟩

end Sys2Proof.Machine

namespace Sys2Proof.Proofs

open Sys2Proof.Machine Sys2Proof.Claims

/-- Settles O8: the refresh leaves `pc` and instruction memory alone, so the fetch is from the state before it. -/
theorem stepRunsTheDecodedInstruction : Obligations.StepRunsTheDecodedInstruction := by
  intro s i hi _
  rw [step_eq_exec, fetch, hi]
  rfl

/-- Settles O9: a step is an instruction on the refreshed state, and every instruction has an outcome in every state. -/
theorem everyStepHasANextState : Obligations.EveryStepHasANextState :=
  ⟨exec_completes, step_completes⟩

/-- Settles O10: the step has an outcome, and every outcome has the effect. -/
theorem stepHasTheWordLevelEffect : Obligations.StepHasTheWordLevelEffect := by
  intro s
  obtain ⟨t, ht⟩ := step_completes s
  exact ⟨t, ht, stepSummary_of_step ht⟩

/-- Settles O11: a read of the address just written gives the word, and a read of another address what it gave before. -/
theorem placedWordIsTheNextOneRun : Obligations.PlacedWordIsTheNextOneRun := by
  intro s w
  refine ⟨?_, fun a ha => ?_, rfl⟩
  · rw [step_eq_exec, fetch_withFetchWord]
    rfl
  · rw [withFetchWord_imem, Memory.read_write_other _ _ ha]

/-- Settles O12: neither class writes `rm` after the refresh. -/
theorem everyStepRefreshesRm : Obligations.EveryStepRefreshesRm :=
  fun _ _ _ h => stepWith_rm h

/-- Settles O13: the refresh overwrites `rm` before anything reads it. -/
theorem staleRmIsNeverObserved : Obligations.StaleRmIsNeverObserved := by
  intro c s v
  have hrefresh : refreshRm c { s with rm := v } = refreshRm c s := rfl
  rw [stepWith, hrefresh, stepWith]

/-- Settles O45: read off the word-level effect of the step. -/
theorem stepsChangeOnlyWhatTheAccessTableLists : Obligations.StepsChangeOnlyWhatTheAccessTableLists := by
  intro s t w hw ht
  have hsummary : StepSummary w s t := hw ▸ stepSummary_of_step ht
  by_cases hclass : w.toNat < 32768
  · obtain ⟨-, hrd, hdmem, hevents, -⟩ := hsummary.addressClass hclass
    exact ⟨fun _ => .inl hclass, fun hne => absurd hrd hne, fun a hne => absurd (by rw [hdmem]) hne,
      fun hne => absurd hevents hne⟩
  · have hcompute : 32768 ≤ w.toNat := Nat.not_lt.mp hclass
    obtain ⟨hra, hrd, hstored, hevents, -, -⟩ := hsummary.computeClass hcompute _ rfl
    refine ⟨fun hne => .inr ?_, fun hne => ⟨hcompute, ?_⟩, fun a hne => ⟨hcompute, ?_⟩, fun hne => ⟨hcompute, ?_⟩⟩
    · by_contra hbit
      exact hne (by rw [hra, if_neg hbit])
    · by_contra hbit
      exact hne (by rw [hrd, if_neg hbit])
    · rw [eq_addr15_iff]
      by_contra hbit
      exact hne (by rw [hstored, if_neg hbit])
    · rw [inDisplay_iff, addr15_toNat]
      by_contra hbit
      exact hne (by rw [hevents, if_neg hbit, List.append_nil])

/-- Settles O48: `@L` at `L` loads `L`, and the jump at `L + 1` goes back to it. -/
theorem terminalStatesStayInTheirLoop : Obligations.TerminalStatesStayInTheirLoop := by
  rintro loop s ⟨hloop, hliteral, hclass, hdest, hjump, hpc | ⟨hpc, hra⟩⟩
  all_goals
    have hsucc : loop + 1 < 32768 := hloop
    have hlow : loop < 32768 := Nat.lt_of_succ_lt hsucc
  · have hfetch : fetch s = BitVec.ofNat 16 loop := by rw [fetch, hpc, addr15_ofNat, hliteral]
    have hnext : zext16 (addr15 (s.pc + 1)) = BitVec.ofNat 16 (loop + 1) := by
      rw [hpc, show BitVec.ofNat 16 loop + 1 = BitVec.ofNat 16 (loop + 1) from (BitVec.ofNat_add loop 1).symm, addr15_ofNat,
        zext16_ofNat hsucc]
    refine ⟨_, step_of_literal hlow hfetch, ⟨hloop, hliteral, hclass, hdest, hjump, .inr ⟨hnext, rfl⟩⟩,
      rfl, fun _ => rfl, rfl, ofNat_toNat_of_lt hlow, fun _ => ?_, fun hat => ?_⟩
    · rw [State.setPc_pc, hnext, ofNat_toNat_of_lt hsucc]
    · rw [hpc, ofNat_toNat_of_lt hlow] at hat
      omega
  · have hfetch : fetch s = s.imem.read (BitVec.ofNat 15 (loop + 1)) := by rw [fetch, hpc, addr15_ofNat]
    obtain ⟨t, ht⟩ := step_completes s
    obtain ⟨htpc, htra, htrd, htimem, htdmem, htevents⟩ :=
      step_of_plain_jump (hfetch ▸ hclass) (hfetch ▸ hdest) (hfetch ▸ hjump) ht
    have hback : t.pc = BitVec.ofNat 16 loop := by rw [htpc, hra, addr15_ofNat, zext16_ofNat hlow]
    refine ⟨t, ht, ?_, htrd, fun _ => by rw [htdmem], htevents, ?_, fun hat => ?_, fun _ => ?_⟩
    · rw [Terminal, htimem]
      exact ⟨hloop, hliteral, hclass, hdest, hjump, .inl hback⟩
    · rw [htra, hra, ofNat_toNat_of_lt hlow]
    · rw [hpc, ofNat_toNat_of_lt hsucc] at hat
      omega
    · rw [hback, ofNat_toNat_of_lt hlow]

/-- Settles O58: the host's write leaves `ra` alone, and the refresh reads the word that `ra` addresses. -/
theorem hostWriteIsSeenByTheNextStep : Obligations.HostWriteIsSeenByTheNextStep := by
  intro a v s t u hwrite hstep
  obtain ⟨ha, rfl⟩ := writeData_ok hwrite
  have haddr : (BitVec.ofNat 15 a).toNat = a := Nat.mod_eq_of_lt ha
  have hsame : addr15 s.ra = BitVec.ofNat 15 a ↔ s.ra.toNat % 32768 = a := by
    rw [← BitVec.toNat_inj, addr15_toNat, haddr]
  rw [step_rm hstep, memWrite_ra, read_memWrite]
  simp only [hsame]

/-- Settles O59: the word-level effect puts the result at the new `ra`, which the next refresh reads. -/
theorem dataWriteIsSeenByTheNextStep : Obligations.DataWriteIsSeenByTheNextStep := by
  intro s t u hclass hstore hst htu
  obtain ⟨-, -, hstored, -⟩ := (stepSummary_of_step hst).computeClass hclass _ rfl
  rw [step_rm htu, hstored, if_pos ⟨hstore, addr15_toNat t.ra⟩]
  rfl

end Sys2Proof.Proofs

/-! SUPPORT. Memories as data: the lemmas that settle the statements on repeated writes (spec/20_memory.md R48) and on the canonical
form (log 1). -/

namespace Sys2Proof.Machine

/-! ### A write replaces the write before it -/

theorem Memory.filter_insert (m : Memory) (k : Nat) (v : Word) :
    (Memory.insert k v m).filter (fun cell => cell.1 != k) = m.filter fun cell => cell.1 != k := by
  induction m with
  | nil => simp [Memory.insert]
  | cons cell rest ih =>
    unfold Memory.insert
    split
    · rw [List.filter_cons_of_neg (by simp)]
    · rw [List.filter_cons, List.filter_cons, ih]

/-- The cells of the other addresses are what they were, for every list, canonical or not. -/
theorem Memory.filter_write (m : Memory) (a : Addr) (v : Word) :
    (m.write a v).filter (fun cell => cell.1 != a.toNat) = m.filter fun cell => cell.1 != a.toNat := by
  simp only [Memory.write]
  split
  · rw [List.filter_filter]
    simp only [Bool.and_self]
  · rw [Memory.filter_insert, List.filter_filter]
    simp only [Bool.and_self]

theorem Memory.write_write (m : Memory) (a : Addr) (v w : Word) : (m.write a v).write a w = m.write a w := by
  rw [Memory.write, Memory.filter_write, ← Memory.write]

/-- A repeated data write changes nothing but the events. -/
theorem memWrite_memWrite (a : Addr) (v : Word) (s : State) :
    memWrite a v (memWrite a v s) = { memWrite a v s with events := (memWrite a v (memWrite a v s)).events } := by
  rw [memWrite, memWrite_dmem, Memory.write_write]
  rfl

/-! ### A canonical memory is determined by what it reads as -/

theorem Memory.read_of_canonicalFrom {low : Nat} {m : Memory} (h : Memory.canonicalFrom low m = true) {a : Addr}
    (ha : a.toNat < low) : m.read a = 0 := by
  induction m generalizing low with
  | nil => rfl
  | cons cell rest ih =>
    obtain ⟨k, v⟩ := cell
    obtain ⟨hlow, -, -, hrest⟩ := (Memory.canonicalFrom_cons low k v rest).mp h
    rw [Memory.read_cons, if_neg (by omega)]
    exact ih hrest (by omega)

/-- The first cell of a canonical memory is seen by a read of its address. -/
theorem Memory.exists_read_cons {low k : Nat} {v : Word} {rest : Memory}
    (h : Memory.canonicalFrom low ((k, v) :: rest) = true) :
    ∃ a : Addr, a.toNat = k ∧ Memory.read ((k, v) :: rest) a = v ∧ v ≠ 0 := by
  obtain ⟨-, hk, hv, -⟩ := (Memory.canonicalFrom_cons low k v rest).mp h
  have ha : (BitVec.ofNat 15 k).toNat = k := Nat.mod_eq_of_lt hk
  exact ⟨BitVec.ofNat 15 k, ha, by rw [Memory.read_cons, if_pos ha.symm], hv⟩

/-- Two canonical memories that read alike do not begin at different addresses: the lower first cell would read as 0. -/
theorem Memory.not_lt_of_read_eq {low₁ low₂ k₁ k₂ : Nat} {v₁ v₂ : Word} {rest₁ rest₂ : Memory}
    (h₁ : Memory.canonicalFrom low₁ ((k₁, v₁) :: rest₁) = true) (h₂ : Memory.canonicalFrom low₂ ((k₂, v₂) :: rest₂) = true)
    (h : ∀ a : Addr, Memory.read ((k₁, v₁) :: rest₁) a = Memory.read ((k₂, v₂) :: rest₂) a) : ¬ k₁ < k₂ := by
  intro hlt
  obtain ⟨a, ha, hread, hv⟩ := Memory.exists_read_cons h₁
  obtain ⟨-, hk₂, hv₂, hrest₂⟩ := (Memory.canonicalFrom_cons low₂ k₂ v₂ rest₂).mp h₂
  have hfrom : Memory.canonicalFrom k₂ ((k₂, v₂) :: rest₂) = true :=
    (Memory.canonicalFrom_cons k₂ k₂ v₂ rest₂).mpr ⟨le_refl k₂, hk₂, hv₂, hrest₂⟩
  rw [h, Memory.read_of_canonicalFrom hfrom (by omega)] at hread
  exact hv hread.symm

theorem Memory.eq_of_read_eq {low : Nat} {m₁ m₂ : Memory} (h₁ : Memory.canonicalFrom low m₁ = true)
    (h₂ : Memory.canonicalFrom low m₂ = true) (h : ∀ a : Addr, m₁.read a = m₂.read a) : m₁ = m₂ := by
  induction m₁ generalizing low m₂ with
  | nil =>
    cases m₂ with
    | nil => rfl
    | cons cell rest =>
      obtain ⟨a, -, hread, hv⟩ := Memory.exists_read_cons h₂
      exact absurd (hread.symm.trans (h a).symm) hv
  | cons cell₁ rest₁ ih =>
    cases m₂ with
    | nil =>
      obtain ⟨a, -, hread, hv⟩ := Memory.exists_read_cons h₁
      exact absurd (hread.symm.trans (h a)) hv
    | cons cell₂ rest₂ =>
      obtain ⟨k, v₁⟩ := cell₁
      obtain ⟨k₂, v₂⟩ := cell₂
      have hnlt := Memory.not_lt_of_read_eq h₁ h₂ h
      have hngt := Memory.not_lt_of_read_eq h₂ h₁ fun a => (h a).symm
      obtain rfl : k = k₂ := by omega
      obtain ⟨-, hk, -, hrest₁⟩ := (Memory.canonicalFrom_cons low k v₁ rest₁).mp h₁
      obtain ⟨-, -, -, hrest₂⟩ := (Memory.canonicalFrom_cons low k v₂ rest₂).mp h₂
      simp only [Memory.read_cons] at h
      have hv : v₁ = v₂ := by
        have hfirst := h (BitVec.ofNat 15 k)
        have ha : k = (BitVec.ofNat 15 k).toNat := (Nat.mod_eq_of_lt hk).symm
        rwa [if_pos ha, if_pos ha] at hfirst
      have hrest : ∀ a : Addr, Memory.read rest₁ a = Memory.read rest₂ a := by
        intro a
        by_cases ha : k = a.toNat
        · have hbelow : a.toNat < k + 1 := by omega
          rw [Memory.read_of_canonicalFrom hrest₁ hbelow, Memory.read_of_canonicalFrom hrest₂ hbelow]
        · have hother := h a
          rwa [if_neg ha, if_neg ha] at hother
      rw [hv, ih hrest₁ hrest₂ hrest]

end Sys2Proof.Machine

namespace Sys2Proof.Proofs

open Sys2Proof.Machine Sys2Proof.Claims

/-- Settles O35: the second write finds the cell that the first one put there, and appends what the first one appended. -/
theorem repeatedDataWrites : Obligations.RepeatedDataWrites := by
  intro a v s
  refine ⟨Memory.write_write s.dmem a v v, fun hout => ?_, fun hin => ?_⟩
  · have hout' : ¬ inDisplay a = true := by rw [hout]; exact Bool.false_ne_true
    rw [memWrite_memWrite, memWrite_events_of_not_inDisplay hout']
  · exact ⟨memWrite_events_of_inDisplay hin v _, displayExpand_length a v, memWrite_memWrite a v s⟩

/-- Settles O36, by induction over both lists: their first cells agree, and below the next address both tails read as 0. -/
theorem canonicalMemoriesThatReadAlikeAreEqual : Obligations.CanonicalMemoriesThatReadAlikeAreEqual :=
  fun _ _ h₁ h₂ h => Memory.eq_of_read_eq h₁ h₂ h

end Sys2Proof.Proofs

/-! SUPPORT. Runs, schedules, loads and the program text: the lemmas that settle the statements on the host's operations
(spec/45_engine_operations.md R176, R177, R182; spec/70_reset_and_hazards.md R214, R217; spec/30_encoding.md R76). -/

namespace Sys2Proof.Machine

open Sys2Proof.Claims

/-! ### Runs (R176) -/

theorem runWith_succ (c : Config) (n : Nat) (s : State) : runWith c (n + 1) s = thenRun c n (stepWith c s) := by
  rw [runWith]
  cases stepWith c s <;> rfl

theorem runWith_add (c : Config) (n m : Nat) (s : State) : runWith c (n + m) s = thenRun c m (runWith c n s) := by
  induction n generalizing s with
  | zero => rw [Nat.zero_add]; rfl
  | succ n ih =>
    rw [Nat.add_right_comm, runWith_succ, runWith_succ]
    cases stepWith c s with
    | next t => exact ih t
    | fault f => rfl
    | refused q => rfl

/-! ### Scheduled runs (R5) -/

theorem runScheduled_succ_next {c : Config} {k n : Nat} {s t : State} (h : runScheduled c k (n + 1) s = .next t) :
    ∃ u, stepWith c (hostWritesAt c k s) = .next u ∧ runScheduled c (k + 1) n u = .next t := by
  rw [runScheduled] at h
  split at h
  next u hu => exact ⟨u, hu, h⟩
  · cases h
  · cases h

theorem hostWritesAt_of_empty {c : Config} (h : c.hostWrites = []) (k : Nat) (s : State) : hostWritesAt c k s = s := by
  rw [hostWritesAt, h]; rfl

theorem runScheduled_of_empty {c : Config} (h : c.hostWrites = []) (k n : Nat) (s : State) :
    runScheduled c k n s = runWith c n s := by
  induction n generalizing k s with
  | zero => rfl
  | succ n ih =>
    rw [runScheduled, hostWritesAt_of_empty h, runWith_succ]
    cases stepWith c s with
    | next t => exact ih (k + 1) t
    | fault f => rfl
    | refused q => rfl

/-! ### Sessions (R182) -/

theorem session_cons {c : Config} {op : HostOp} {s t : State} (h : stateAfter s (hostCall c op s) = some t)
    (rest : List HostOp) : session c (op :: rest) s = session c rest t := by
  simp only [session, h]

theorem session_append_of_some {c : Config} {first : List HostOp} {s t : State} (h : session c first s = some t)
    (rest : List HostOp) : session c (first ++ rest) s = session c rest t := by
  induction first generalizing s with
  | nil => cases h; rfl
  | cons op ops ih =>
    cases hcall : stateAfter s (hostCall c op s) with
    | none => simp only [session, hcall, reduceCtorEq] at h
    | some u =>
      rw [session_cons hcall] at h
      rw [List.cons_append, session_cons hcall, ih h]

theorem stateAfter_writeData (c : Config) (a : Addr) (v : Word) (s : State) :
    stateAfter s (hostCall c (.writeData a.toNat v) s) = some (memWrite a v s) := by
  rw [hostCall, writeData_toNat]; rfl

/-- The data writes of a list of host writes, as a session of `write_data` calls. -/
theorem session_writes (c : Config) (writes : List HostWrite) (s : State) :
    session c (writes.map fun hw => HostOp.writeData hw.addr.toNat hw.value) s
      = some (writes.foldl (fun t hw => memWrite hw.addr hw.value t) s) := by
  induction writes generalizing s with
  | nil => rfl
  | cons hw rest ih => rw [List.map_cons, session_cons (stateAfter_writeData c hw.addr hw.value s), ih, List.foldl_cons]

theorem session_scheduledCalls {c : Config} {k n : Nat} {s t : State} (h : runScheduled c k n s = .next t) :
    session c (scheduledCalls c k n) s = some t := by
  induction n generalizing k s with
  | zero => cases h; rfl
  | succ n ih =>
    obtain ⟨u, hstep, hrest⟩ := runScheduled_succ_next h
    have hcall : stateAfter (hostWritesAt c k s) (hostCall c .step (hostWritesAt c k s)) = some u := by
      rw [hostCall, hstep]; rfl
    rw [scheduledCalls, session_append_of_some (session_writes c _ s)]
    exact (session_cons hcall _).trans (ih hrest)

/-! ### `set_program_counter` and the loads -/

theorem setProgramCounter_of_accepted {c : Config} {v : Word} (h : c.pcOverflow = .wrap ∨ v.toNat < 32768) (s : State) :
    setProgramCounter c v s = .ok (s.setPc (zext16 (addr15 v))) := by
  cases hc : c.pcOverflow with
  | wrap => simp only [setProgramCounter, hc]
  | fault =>
    have hlow : v.toNat < 32768 := h.resolve_left (by rw [hc]; exact nofun)
    have hbit : ¬ v.getLsbD 15 = true := by rw [getLsbD_15_eq, decide_eq_true_eq]; omega
    simp only [setProgramCounter, hc, if_neg hbit]

theorem setProgramCounter_of_refused {c : Config} (hc : c.pcOverflow = .fault) {v : Word} (h : 32768 ≤ v.toNat) (s : State) :
    setProgramCounter c v s = .error .pcOutOfRange := by
  have hbit : v.getLsbD 15 = true := by rw [getLsbD_15_eq, decide_eq_true_eq]; exact h
  simp only [setProgramCounter, hc, if_pos hbit]

theorem loadProgram_of_fits {words : List Word} (h : words.length ≤ 32768) (s : State) :
    loadProgram words s = .ok { s with imem := Memory.ofWords 0 words } :=
  if_neg (Nat.not_lt.mpr h)

/-! ### The program text (R76) -/

/-- The low `n` bits of a word as characters, the highest first. -/
def lowBitsText (w : Word) (n : Nat) : List Char :=
  (List.range n).map fun i => if w.getLsbD (n - 1 - i) then '1' else '0'

theorem renderWord_eq_lowBitsText (w : Word) : renderWord w = lowBitsText w 16 := rfl

theorem lowBitsText_succ (w : Word) (n : Nat) :
    lowBitsText w (n + 1) = (if w.getLsbD n then '1' else '0') :: lowBitsText w n := by
  rw [lowBitsText, List.range_succ_eq_map, List.map_cons, List.map_map]
  congr 1
  apply List.map_congr_left
  intro i _
  have hindex : n + 1 - 1 - (i + 1) = n - 1 - i := by omega
  simp only [Function.comp_apply, Nat.succ_eq_add_one, hindex]

theorem bitOfChar_ite (b : Bool) : bitOfChar (if b then '1' else '0') = some b := by
  cases b <;> decide

theorem shiftRight_succ_append_bit (w : Word) (n : Nat) :
    (w >>> (n + 1)) <<< 1 ||| (BitVec.ofBool (w.getLsbD n)).setWidth 16 = w >>> n := by
  apply BitVec.eq_of_getLsbD_eq
  intro i hi
  rcases i with _ | i
  · simp
  · have hindex : n + 1 + i = n + (i + 1) := by omega
    simp [hi, hindex]

/-- Reading the low `n` bits after the bits above them gives the word. -/
theorem parseBits_lowBitsText (w : Word) (n : Nat) : parseBits (lowBitsText w n) (w >>> n) = some w := by
  induction n with
  | zero => simp [lowBitsText, parseBits]
  | succ n ih => rw [lowBitsText_succ, parseBits_cons_of_some (bitOfChar_ite _), shiftRight_succ_append_bit, ih]

theorem parseLine_renderWord (w : Word) : parseLine (renderWord w) = some w := by
  have hlen : (renderWord w).length = 16 := by rw [renderWord, List.length_map, List.length_range]
  have habove : w >>> 16 = 0 := BitVec.ushiftRight_eq_zero (le_refl 16)
  rw [parseLine, if_pos hlen, renderWord_eq_lowBitsText, ← habove, parseBits_lowBitsText]

theorem parseProgram_renderWord (words : List Word) : parseProgram (words.map renderWord) = .ok words := by
  induction words with
  | nil => rfl
  | cons w rest ih => simp only [List.map_cons, parseProgram, parseLine_renderWord, ih]

end Sys2Proof.Machine

namespace Sys2Proof.Proofs

open Sys2Proof.Machine Sys2Proof.Claims

/-- Settles O49, the last part by induction on the first run. -/
theorem runsCompose : Obligations.RunsCompose :=
  fun c n m s => ⟨rfl, runWith_succ c n s, runWith_add c n m s⟩

/-- Settles O50, by induction on the steps. -/
theorem emptyScheduleIsAPlainRun : Obligations.EmptyScheduleIsAPlainRun :=
  fun _ k n s h => runScheduled_of_empty h k n s

/-- Settles O51, by induction on the steps: the writes before a step are a session of their own, and the step is one call. -/
theorem scheduledRunIsAHostSession : Obligations.ScheduledRunIsAHostSession :=
  fun _ _ _ _ _ h => session_scheduledCalls h

/-- Settles O53: bit 15 of the argument decides between the two answers, and only with `PC_OVERFLOW = fault`. -/
theorem setProgramCounterWritesPcAlone : Obligations.SetProgramCounterWritesPcAlone := by
  intro c s v
  constructor
  · intro haccepted
    exact ⟨_, setProgramCounter_of_accepted haccepted s, zext16_addr15_toNat v, rfl⟩
  · intro hc hhigh
    exact rejected_of_replyOf_error rfl (setProgramCounter_of_refused hc hhigh s)

/-- Settles O54: past the last word of the list the image has no cell, so it reads as 0. -/
theorem loadProgramReplacesTheWholeImage : Obligations.LoadProgramReplacesTheWholeImage := by
  intro words s hlen
  refine ⟨_, loadProgram_of_fits hlen s, fun a => ?_, Memory.wf_ofWords hlen, rfl⟩
  rw [Memory.read_ofWords, if_pos (Nat.zero_le _), Nat.sub_zero]

/-- Settles O56: the parser reads back each rendered line. -/
theorem programTextLoadsItsWords : Obligations.ProgramTextLoadsItsWords := by
  intro words s
  simp only [loadText, parseProgram_renderWord]

/-- Settles O57: a load writes instruction memory alone, which a reset keeps. -/
theorem loadAndResetCommute : Obligations.LoadAndResetCommute := by
  intro words s t ht
  obtain ⟨hlen, rfl⟩ := loadProgram_ok ht
  exact loadProgram_of_fits hlen (resetMachine s)

end Sys2Proof.Proofs
